-- ==== Sys2Proof/Word.lean ====
section
/-!
DEFINITION. The values the machine moves (00_scope.md section 5): no value has a bit width.
-/

namespace Sys2Proof

/-- The content of AC and of a data cell: the mathematical integer, unbounded in both directions
(10_state.md R12, R22). -/
abbrev Value := Int

/-- A `String` of the spec, "a finite sequence of characters" (00_scope.md section 5): the content of IR, MDR
and a text cell. Held as the list of its characters. DESIGN CHOICE, safe: log entry 1. -/
abbrev Text := List Char

end Sys2Proof
end

