-- ==== Sys2Proof/Syntax.lean ====
section
/-!
DEFINITION. The instructions, one constructor per row of spec/opcode_table.json, and what decoding can answer.
-/

namespace Sys2Proof

/-- The five instructions (00_scope.md R2, 30_encoding.md R66). The operand is the memory address itself,
any integer (30_encoding.md R63). -/
inductive Instr where
  | load (a : Int)
  | store (a : Int)
  | add (a : Int)
  | sub (a : Int)
  | hlt
  deriving DecidableEq, Repr

/-- The three recorded, non-fatal conditions (60_exceptions.md R98). -/
inductive Anomaly where
  | missingOperand
  | invalidOperand
  | unknownInstruction
  deriving DecidableEq, Repr

/-- Why the spec gives a text no meaning (30_encoding.md R65). -/
inductive RefusalReason where
  /-- a character outside the alphabet of 30_encoding.md R54 -/
  | nonAsciiText
  /-- an operand token with underscores, 30_encoding.md R62 -/
  | ambiguousOperand
  /-- extra tokens under `EXTRA_TOKENS = refuse`, 30_encoding.md R60 -/
  | extraTokens
  deriving DecidableEq, Repr

/-- The closed variant `Decoded` of 30_encoding.md R65: its `Halt`, `Load`, `Store`, `Add` and `Sub` are
`instr`, its three anomaly outcomes are `anomaly`. -/
inductive Decoded where
  | blank
  | instr (i : Instr)
  | anomaly (k : Anomaly)
  | refused (r : RefusalReason)
  deriving DecidableEq, Repr

/-- A program as the host supplies it (30_encoding.md R69): a mapping from address to instruction text and a
mapping from address to data value, each a list of entries. -/
structure Program where
  instructions : List (Int × Text)
  data : List (Int × Value)
  deriving DecidableEq, Repr

end Sys2Proof
end

