-- ==== Sys2Proof/Config.lean ====
section
/-!
DEFINITION. What is fixed when a core is constructed, and the one value the spec leaves open.
-/

namespace Sys2Proof

/-- The parameter `EXTRA_TOKENS` (30_encoding.md R60). -/
inductive ExtraTokens where
  | ignore
  | refuse
  deriving DecidableEq, Repr

/-- The construction parameters (00_scope.md section 4). They travel in State, which no operation changes
them in, so that a claim about every state holds for every parameter. DESIGN CHOICE, safe: log entry 2. -/
structure Config where
  /-- `N`, the number of cells: any natural number, 0 included (00_scope.md R6) -/
  capacity : Nat
  extraTokens : ExtraTokens
  deriving DecidableEq, Repr

/-- The spec's defaults: `N = 256` (00_scope.md R6) and `EXTRA_TOKENS = ignore` (30_encoding.md R60). -/
def Config.default : Config := { capacity := 256, extraTokens := .ignore }

/-- FREE VALUE. The draw of 40_data_transfer.md R72: the `n`-th time a STORE to an out-of-range address fills
its event, is the after-value AC (true) or 0 (false)? It has no body: no proof can see which.
DESIGN CHOICE, safe: log entry 3. -/
opaque Config.storeTraceDraw : Nat → Bool

end Sys2Proof
end

