-- ==== Sys2Proof/WellFormed.lean ====
section
/-!
DEFINITION. What a well-formed instruction and a well-formed program are.
-/

namespace Sys2Proof

/-- Every instruction is well-formed: the operand may be any integer, and decode does not range-check it
(30_encoding.md R63). -/
def Instr.wf : Instr → Bool
  | .load _ => true
  | .store _ => true
  | .add _ => true
  | .sub _ => true
  | .hlt => true

/-- Is `a` the address of a cell of a memory of `n` cells (20_memory.md R28)? -/
def cellAddress (n : Nat) (a : Int) : Bool := decide (0 ≤ a ∧ a < (n : Int))

/-- Is no element listed twice? -/
def noRepeats : List Int → Bool
  | [] => true
  | a :: as => !as.contains a && noRepeats as

/-- What the host's two mappings should satisfy (43_cycle_sequencer.md R81): each free of duplicate addresses
and inside `[0, N)`. The core does not check it. -/
def Program.wf (n : Nat) (p : Program) : Bool :=
  (p.instructions.all fun e => cellAddress n e.1) && noRepeats (p.instructions.map Prod.fst)
    && (p.data.all fun e => cellAddress n e.1) && noRepeats (p.data.map Prod.fst)

end Sys2Proof
end

