-- ==== Sys2Proof/Decode.lean ====
section
/-!
DEFINITION. Decoding, total on every text (30_encoding.md), and the encoder after it.
-/

namespace Sys2Proof

/-! ## Characters -/

/-- The six whitespace characters SP, HT, LF, VT, FF, CR (30_encoding.md R55). -/
def isWhitespace (c : Char) : Bool :=
  c.toNat == 0x20 || (0x09 ≤ c.toNat && c.toNat ≤ 0x0D)

/-- The admitted alphabet: 0x20 to 0x7E and HT, LF, VT, FF, CR (30_encoding.md R54). -/
def isAdmitted (c : Char) : Bool :=
  (0x20 ≤ c.toNat && c.toNat ≤ 0x7E) || (0x09 ≤ c.toNat && c.toNat ≤ 0x0D)

/-- ASCII decimal digit (30_encoding.md R61). -/
def isDigit (c : Char) : Bool := 0x30 ≤ c.toNat && c.toNat ≤ 0x39

/-- `digitValue` of 30_encoding.md R61. -/
def digitValue (c : Char) : Nat := c.toNat - 0x30

/-! ## Tokens -/

/-- The word read so far, if there is one. -/
def closeToken (w : Text) : List Text := if w = [] then [] else [w]

/-- `tokens` with `w` the word read so far. -/
def tokensFrom (w : Text) : Text → List Text
  | [] => closeToken w
  | c :: cs => if isWhitespace c then closeToken w ++ tokensFrom [] cs else tokensFrom (w ++ [c]) cs

/-- `tokens(s)`: the maximal pieces without whitespace, left to right (30_encoding.md R58). -/
def tokens (s : Text) : List Text := tokensFrom [] s

/-! ## The operand -/

/-- A token without its leading sign character, if any (30_encoding.md R61). -/
def unsigned : Text → Text
  | [] => []
  | c :: cs => if c = '+' ∨ c = '-' then cs else c :: cs

/-- Does the token match `[+-]?[0-9]+` (30_encoding.md R61)? -/
def isCanonical (t : Text) : Bool := unsigned t != [] && (unsigned t).all isDigit

/-- Is the token ambiguous (30_encoding.md R62): not canonical, matching `[+-]?[0-9_]+`, with at least one
underscore and at least one digit? -/
def isAmbiguous (t : Text) : Bool :=
  !isCanonical t && (unsigned t).all (fun c => isDigit c || c == '_')
    && (unsigned t).any (fun c => c == '_') && (unsigned t).any isDigit

/-- The decimal value of a string of digits, most significant first. -/
def digitsValue (ds : Text) : Nat := ds.foldl (fun n c => 10 * n + digitValue c) 0

/-- `parseInt(t)` of a canonical token (30_encoding.md R61). -/
def parseInt (t : Text) : Int :=
  if t.head? = some '-' then -(digitsValue (unsigned t) : Int) else (digitsValue (unsigned t) : Int)

/-! ## The opcode map -/

/-- The opcode names, matched character for character (30_encoding.md R59, R66). -/
def opLOAD : Text := ['L', 'O', 'A', 'D']
@[inherit_doc opLOAD] def opSTORE : Text := ['S', 'T', 'O', 'R', 'E']
@[inherit_doc opLOAD] def opADD : Text := ['A', 'D', 'D']
@[inherit_doc opLOAD] def opSUB : Text := ['S', 'U', 'B']
@[inherit_doc opLOAD] def opHLT : Text := ['H', 'L', 'T']

/-- How many operands an opcode token takes: none for `HLT`, one for every other (30_encoding.md R64). -/
def arity (op : Text) : Nat := if op = opHLT then 0 else 1

/-- The four operand opcodes, and UnknownInstruction for any other (the last tests of 30_encoding.md R64). -/
def decodeOperandOpcode (op : Text) (a : Int) : Decoded :=
  if op = opLOAD then .instr (.load a)
  else if op = opSTORE then .instr (.store a)
  else if op = opADD then .instr (.add a)
  else if op = opSUB then .instr (.sub a)
  else .anomaly .unknownInstruction

/-- The tests of 30_encoding.md R64 on the tokens after the first. -/
def decodeOperand (op : Text) : List Text → Decoded
  | [] => .anomaly .missingOperand
  | t :: _ =>
    if isAmbiguous t then .refused .ambiguousOperand
    else if isCanonical t then decodeOperandOpcode op (parseInt t)
    else .anomaly .invalidOperand

/-- The tests of 30_encoding.md R64 on the tokens. -/
def decodeTokens (x : ExtraTokens) : List Text → Decoded
  | [] => .blank
  | op :: rest =>
    if x = .refuse ∧ rest.length > arity op then .refused .extraTokens
    else if op = opHLT then .instr .hlt
    else decodeOperand op rest

/-- `decode(s)`: total, reads only the text and `EXTRA_TOKENS`; the first test that applies decides
(30_encoding.md R64, 60_exceptions.md R104). -/
def decode (x : ExtraTokens) (s : Text) : Decoded :=
  if s.all isAdmitted then decodeTokens x (tokens s) else .refused .nonAsciiText

/-! ## The encoder: the canonical spelling (30_encoding.md R69) -/

/-- The character of a decimal digit. -/
def digitChar (d : Nat) : Char := Char.ofNat (0x30 + d)

/-- The decimal digits of `n`, most significant first, in front of `acc`; `fuel > n` digits of fuel suffice. -/
def decimalFrom : Nat → Nat → Text → Text
  | 0, _, acc => acc
  | fuel + 1, n, acc =>
    if n < 10 then digitChar n :: acc else decimalFrom fuel (n / 10) (digitChar (n % 10) :: acc)

/-- The decimal numeral of `n`, with no leading zeros. -/
def decimal (n : Nat) : Text := decimalFrom (n + 1) n []

/-- The decimal numeral of an integer, with a `-` sign only when it is negative (30_encoding.md R69). -/
def encodeInt (a : Int) : Text := if a < 0 then '-' :: decimal a.natAbs else decimal a.natAbs

/-- Opcode, one SP, operand: format T1 (30_encoding.md R57, R69). -/
def encodeT1 (op : Text) (a : Int) : Text := op ++ ' ' :: encodeInt a

/-- The canonical text of an instruction (30_encoding.md R66, R69). -/
def encode : Instr → Text
  | .load a => encodeT1 opLOAD a
  | .store a => encodeT1 opSTORE a
  | .add a => encodeT1 opADD a
  | .sub a => encodeT1 opSUB a
  | .hlt => opHLT

/-! ## Numbered words: a text as a number (log entry 7)

The instruction set has no binary form (00_scope.md R5). A number stands for a text by its ASCII codes: the
first character is bits 7..0, the next bits 15..8, and so on. DESIGN CHOICE: log entry 7. -/

/-- The characters of the lowest bytes of `w`, at most as many as the first argument says; zeros above the last
character are no characters. -/
def textOfBytes : Nat → Nat → Text
  | 0, _ => []
  | k + 1, w => if w = 0 then [] else Char.ofNat (w % 256) :: textOfBytes k (w / 256)

/-- The text that `nbits` bits of `w` stand for. -/
def textOfWord (nbits w : Nat) : Text := textOfBytes ((nbits + 7) / 8) (w % 2 ^ nbits)

/-- The number that stands for a text. -/
def wordOfText : Text → Nat
  | [] => 0
  | c :: cs => c.toNat + 256 * wordOfText cs

/-- The number of bits and the number of an instruction's canonical text. -/
def encodeTableWord (i : Instr) : Nat × Nat := (8 * (encode i).length, wordOfText (encode i))

/-- The instruction the decoder reads from a numbered word, under the default parameters; none where it gives no
instruction. -/
def decodeTableWord (nbits w : Nat) : Option Instr :=
  match decode Config.default.extraTokens (textOfWord nbits w) with
  | .instr i => some i
  | .blank => none
  | .anomaly _ => none
  | .refused _ => none

end Sys2Proof
end

