-- ==== Sys2Proof/Machine/State.lean ====
section
/-!
DEFINITION. The state of the core (10_state.md R7) as plain data, why a step can stop, and the reset state.
-/

namespace Sys2Proof.Machine

open Sys2Proof

/-- An event record of the trace log (10_state.md R20): its content, not its characters. -/
inductive Event where
  | load (pc : Nat) (text : Text) (addr : Int) (acBefore acAfter : Value)
  | store (pc : Nat) (text : Text) (addr : Int) (memBefore memAfter : Value)
  | add (pc : Nat) (text : Text) (addr : Int) (acBefore acAfter : Value)
  | sub (pc : Nat) (text : Text) (addr : Int) (acBefore acAfter : Value)
  | halt (pc : Nat) (text : Text)
  | missingOperand (pc : Nat) (text : Text)
  | invalidOperand (pc : Nat) (text : Text)
  | unknownInstruction (pc : Nat) (text : Text)
  | runStart
  | runEnd
  deriving DecidableEq, Repr

/-- Memory: the three views of its cells (10_state.md R21 to R24), each the list of the cells that do not hold
the view's default (0, "" or false), by rising address. Log entry 9. -/
structure Memory where
  data : List (Nat × Value)
  text : List (Nat × Text)
  tag : List (Nat × Bool)
  deriving DecidableEq, Repr

/-- The state of 10_state.md R7, with the construction parameters `cfg` (log entry 2) and the model's own count
of draws (log entry 3). -/
structure State where
  /-- `N` and `EXTRA_TOKENS`; no operation changes them -/
  cfg : Config
  /-- the accumulator, R12 -/
  ac : Value
  /-- the program counter, R13 -/
  pc : Nat
  /-- the instruction register, R14 -/
  ir : Text
  /-- the memory address register, R15 -/
  mar : Nat
  /-- the memory data register, R16 -/
  mdr : Text
  /-- R18 -/
  halted : Bool
  /-- the trace log, R19 -/
  log : List Event
  /-- R21 -/
  mem : Memory
  /-- the refusal mark, R7 and 43_cycle_sequencer.md R96 -/
  refused : Option RefusalReason
  /-- how many draws have been made: the model's own, log entry 3 -/
  draws : Nat
  deriving DecidableEq, Repr

/-- The hardware has no condition that stops it other than `halted` and the end of memory, which are states
(60_exceptions.md R98, 20_memory.md R34): there is no fault, and nothing raises one. Log entry 14. -/
inductive Fault where
  deriving DecidableEq, Repr

/-- Why a step has no meaning. -/
inductive Refusal where
  /-- Raised by an arm of exec whose instruction has no meaning yet; no arm raises it now. Safe. -/
  | notModelled (mnemonic : String)
  /-- Raised by the cycle and by every host operation once the text of a fetched cell has been refused
  (43_cycle_sequencer.md R96). It is the spec's own refusal. Safe: nothing is claimed of such a run. -/
  | instructionText (r : RefusalReason)
  deriving DecidableEq, Repr

/-- A core as it is constructed: the reset state (70_reset_and_hazards.md R114, R115). -/
def State.construct (cfg : Config) : State :=
  { cfg := cfg
    ac := 0
    pc := 0
    ir := []
    mar := 0
    mdr := []
    halted := false
    log := []
    mem := { data := [], text := [], tag := [] }
    refused := none
    draws := 0 }

/-- The machine right after reset, with the spec's default parameters (70_reset_and_hazards.md R114, R116). -/
def State.reset : State := State.construct Config.default

end Sys2Proof.Machine
end

