-- ==== Sys2Proof/Machine/Memory.lean ====
section
/-!
DEFINITION. One view of memory as a sparse list with a default: reading, writing, its canonical form.
-/

namespace Sys2Proof.Machine

/-- What the cell at `a` holds in a view whose unlisted cells hold `d`. -/
def viewRead {α : Type} (d : α) : List (Nat × α) → Nat → α
  | [], _ => d
  | (b, w) :: m, a => if b = a then w else viewRead d m a

/-- The view without an entry for `a`. -/
def viewErase {α : Type} (m : List (Nat × α)) (a : Nat) : List (Nat × α) :=
  m.filter fun e => e.1 != a

/-- The view with an entry for `a`, in its place by rising address. -/
def viewInsert {α : Type} : List (Nat × α) → Nat → α → List (Nat × α)
  | [], a, v => [(a, v)]
  | (b, w) :: m, a, v => if a < b then (a, v) :: (b, w) :: m else (b, w) :: viewInsert m a v

/-- The view after the cell at `a` was set to `v`: writing the default leaves no entry. -/
def viewWrite {α : Type} [DecidableEq α] (d : α) (m : List (Nat × α)) (a : Nat) (v : α) : List (Nat × α) :=
  if v = d then viewErase m a else viewInsert (viewErase m a) a v

/-- The canonical form of a view of `n` cells: addresses strictly rising, each below `n`, no entry equal to the
default. -/
def viewWf {α : Type} [DecidableEq α] (d : α) (n : Nat) : List (Nat × α) → Bool
  | [] => true
  | (a, v) :: m => (m.all fun e => decide (a < e.1)) && decide (a < n) && !decide (v = d) && viewWf d n m

/-- The canonical form of a memory of `n` cells, view by view. -/
def Memory.wf (n : Nat) (m : Memory) : Bool :=
  viewWf 0 n m.data && viewWf [] n m.text && viewWf false n m.tag

/-- A memory with all-default cells (10_state.md R21). -/
def Memory.blank : Memory := { data := [], text := [], tag := [] }

end Sys2Proof.Machine
end

