-- ==== Sys2Proof/Machine/Ops.lean ====
section
/-!
DEFINITION. The named operations over memory, registers and the log that every instruction and host operation is
made of, and the one shared operation that records an anomaly.
-/

namespace Sys2Proof.Machine

open Sys2Proof

/-! ## Memory access (20_memory.md) -/

/-- `a` is the address of a cell: `0 <= a < N` (20_memory.md R28). -/
abbrev InRange (s : State) (a : Int) : Prop := 0 ≤ a ∧ a < (s.cfg.capacity : Int)

/-- `MemRead(a, 1)`: the data view, 0 out of range (20_memory.md R30). -/
def memRead (a : Int) (s : State) : Value :=
  if InRange s a then viewRead 0 s.mem.data a.toNat else 0

/-- `FetchText(a)`: the text view, "" out of range (20_memory.md R32). -/
def fetchText (a : Int) (s : State) : Text :=
  if InRange s a then viewRead [] s.mem.text a.toNat else []

/-- `TagRead(a)`: the tag, false out of range (20_memory.md R33). -/
def tagRead (a : Int) (s : State) : Bool :=
  if InRange s a then viewRead false s.mem.tag a.toNat else false

/-- The state with memory `m`. -/
def State.setMem (m : Memory) (s : State) : State := { s with mem := m }

/-- `MemWrite(a, 1, v)`: the data view only; out of range nothing (20_memory.md R31). -/
def memWrite (a : Int) (v : Value) (s : State) : State :=
  if InRange s a then s.setMem { s.mem with data := viewWrite 0 s.mem.data a.toNat v } else s

/-! ## Registers, the log, the draws -/

/-- `AC <- v` (10_state.md R12). -/
def State.setAc (v : Value) (s : State) : State := { s with ac := v }

/-- `emit(e)`: `log <- log ++ [e]` (00_scope.md section 5). -/
def State.emit (e : Event) (s : State) : State := { s with log := s.log ++ [e] }

/-- `log <- []` (43_cycle_sequencer.md R90). -/
def State.clearLog (s : State) : State := { s with log := [] }

/-- `refused <- some r` (43_cycle_sequencer.md R96). -/
def State.markRefused (r : RefusalReason) (s : State) : State := { s with refused := some r }

/-- One draw has been made: the next one is another (00_scope.md section 5, "Draws"). -/
def State.countDraw (s : State) : State := { s with draws := s.draws + 1 }

/-- The `pc` field of the events of decode-execute: `PC - 1`, the address the text was fetched from
(43_cycle_sequencer.md R87). At `PC = 0`, which no cycle shows it, it is 0: log entry 6. -/
def fetchAddress (s : State) : Nat := s.pc - 1

/-! ## Fetch -/

/-- Fetch: MAR <- PC, MDR <- FetchText(MAR), IR <- MDR, PC <- PC + 1, in that order (43_cycle_sequencer.md R83). -/
def fetch (s : State) : State :=
  let s₁ := { s with mar := s.pc }
  let s₂ := { s₁ with mdr := fetchText s₁.mar s₁ }
  let s₃ := { s₂ with ir := s₂.mdr }
  { s₃ with pc := s₃.pc + 1 }

/-! ## Anomalies -/

/-- The event that records an anomaly (10_state.md R20). -/
def anomalyEvent : Anomaly → Nat → Text → Event
  | .missingOperand, pc, text => .missingOperand pc text
  | .invalidOperand, pc, text => .invalidOperand pc text
  | .unknownInstruction, pc, text => .unknownInstruction pc text

/-- An anomaly is recorded with the fetch address and the text, and nothing else changes: no trap entry, no saved
state, no jump (60_exceptions.md R98 to R101, R106). There is no return from it: the next cycle follows (R107). -/
def recordAnomaly (k : Anomaly) (s : State) : State :=
  s.emit (anomalyEvent k (fetchAddress s) s.ir)

/-! ## Events -/

/-- The numeric kind code of an event (10_state.md R20, 60_exceptions.md R102). -/
def Event.code : Event → Nat
  | .load .. => 1
  | .store .. => 2
  | .add .. => 3
  | .sub .. => 4
  | .halt .. => 5
  | .missingOperand .. => 6
  | .invalidOperand .. => 7
  | .unknownInstruction .. => 8
  | .runStart => 9
  | .runEnd => 10

/-- The fetch address an event records; the two banners record none (10_state.md R20). -/
def Event.pc? : Event → Option Nat
  | .load pc .. => some pc
  | .store pc .. => some pc
  | .add pc .. => some pc
  | .sub pc .. => some pc
  | .halt pc _ => some pc
  | .missingOperand pc _ => some pc
  | .invalidOperand pc _ => some pc
  | .unknownInstruction pc _ => some pc
  | .runStart => none
  | .runEnd => none

/-- The instruction text an event records; the two banners record none (10_state.md R20). -/
def Event.text? : Event → Option Text
  | .load _ text .. => some text
  | .store _ text .. => some text
  | .add _ text .. => some text
  | .sub _ text .. => some text
  | .halt _ text => some text
  | .missingOperand _ text => some text
  | .invalidOperand _ text => some text
  | .unknownInstruction _ text => some text
  | .runStart => none
  | .runEnd => none

/-! ## Outcomes -/

/-- The next state changed by `f`, a stop left as it is. -/
def mapNext {α β : Type} (f : α → β) : Host.Outcome α Fault Refusal → Host.Outcome β Fault Refusal
  | .next a => .next (f a)
  | .fault e => .fault e
  | .refused r => .refused r

end Sys2Proof.Machine
end

