-- ==== Sys2Proof/Machine/Operands.lean ====
section
/-!
DEFINITION. The one operand form: direct (absolute) addressing (30_encoding.md R63, 40_data_transfer.md R73).
-/

namespace Sys2Proof.Machine

open Sys2Proof

/-- The effective address is the operand value: not scaled, not offset, not range-checked (30_encoding.md R63). -/
def effectiveAddress (a : Int) (_s : State) : Int := a

/-- The value an operand names: one read of the data path, the whole cell (40_data_transfer.md R73). -/
def operandRead (a : Int) (s : State) : Value := memRead (effectiveAddress a s) s

/-- The store to an operand's cell: one write of the data path (40_data_transfer.md R73). -/
def operandWrite (a : Int) (v : Value) (s : State) : State := memWrite (effectiveAddress a s) v s

end Sys2Proof.Machine
end

