-- ==== Sys2Proof/Machine/Arithmetic.lean ====
section
/-!
DEFINITION. The arithmetic instructions ADD and SUB: exact over the integers, no flags (41_arithmetic.md R74).
-/

namespace Sys2Proof.Machine

open Sys2Proof

/-- ADD: AC <- AC + MemRead(a, 1), event Add (41_arithmetic.md R75). -/
def execAdd (a : Int) (s : State) : Host.Outcome State Fault Refusal :=
  let after := s.ac + operandRead a s
  .next ((s.setAc after).emit (.add (fetchAddress s) s.ir a s.ac after))

/-- SUB: AC <- AC - MemRead(a, 1), the accumulator the minuend, event Sub (41_arithmetic.md R76, R77). -/
def execSub (a : Int) (s : State) : Host.Outcome State Fault Refusal :=
  let after := s.ac - operandRead a s
  .next ((s.setAc after).emit (.sub (fetchAddress s) s.ir a s.ac after))

end Sys2Proof.Machine
end

