-- ==== Sys2Proof/Machine/Flags.lean ====
section
/-!
DEFINITION. The one status flag, `halted`, and the status it gives with PC and N. No arithmetic flag exists
(10_state.md R18).
-/

namespace Sys2Proof.Machine

open Sys2Proof

/-- `halted <- true`: only HLT does it (10_state.md R18). -/
def State.setHalted (s : State) : State := { s with halted := true }

/-- The three statuses (43_cycle_sequencer.md R92). -/
inductive Status where
  | ready
  | halted
  | outOfBounds
  deriving DecidableEq, Repr

/-- The status is a function of `halted`, PC and N; `halted` is tested first (43_cycle_sequencer.md R92). -/
def status (s : State) : Status :=
  if s.halted then .halted else if s.cfg.capacity ≤ s.pc then .outOfBounds else .ready

end Sys2Proof.Machine
end

