-- ==== Sys2Proof/Machine/Halt.lean ====
section
/-!
DEFINITION. The halt instruction HLT (42_halt.md).
-/

namespace Sys2Proof.Machine

open Sys2Proof

/-- HLT: event Halt, then halted <- true; PC stays one past it (42_halt.md R78). -/
def execHlt (s : State) : Host.Outcome State Fault Refusal :=
  .next ((s.emit (.halt (fetchAddress s) s.ir)).setHalted)

end Sys2Proof.Machine
end

