-- ==== Sys2Proof/Machine/Transfer.lean ====
section
/-!
DEFINITION. The data transfer instructions LOAD and STORE (40_data_transfer.md).
-/

namespace Sys2Proof.Machine

open Sys2Proof

/-- LOAD: AC <- MemRead(a, 1), event Load (40_data_transfer.md R71). -/
def execLoad (a : Int) (s : State) : Host.Outcome State Fault Refusal :=
  let after := operandRead a s
  .next ((s.setAc after).emit (.load (fetchAddress s) s.ir a s.ac after))

/-- The after-value of the event of a STORE to an out-of-range address: any value of {0, AC}
(40_data_transfer.md R72). FREE VALUE: log entry 3. -/
def ignoredStoreAfter (s : State) : Value :=
  if Config.storeTraceDraw s.draws then s.ac else 0

/-- STORE: MemWrite(a, 1, AC), event Store (40_data_transfer.md R72). The two reads only fill the event: in range the
after-value is the cell read back; out of range it is a draw. -/
def execStore (a : Int) (s : State) : Host.Outcome State Fault Refusal :=
  let ea := effectiveAddress a s
  let t := operandWrite a s.ac s
  if InRange s ea then
    .next (t.emit (.store (fetchAddress s) s.ir a (memRead ea s) (memRead ea t)))
  else
    .next ((t.emit (.store (fetchAddress s) s.ir a (memRead ea s) (ignoredStoreAfter s))).countDraw)

end Sys2Proof.Machine
end

