-- ==== Sys2Proof/Machine/Cycle.lean ====
section
/-!
DEFINITION. Decode-execute, the single cycle and the full run (43_cycle_sequencer.md).
-/

namespace Sys2Proof.Machine

open Sys2Proof

/-- Decode-execute: nothing when halted; else IR is decoded once and the variant dispatched
(43_cycle_sequencer.md R85, R86). -/
def decodeExecute (s : State) : Host.Outcome State Fault Refusal :=
  if s.halted then .next s
  else
    match decode s.cfg.extraTokens s.ir with
    | .blank => .next s
    | .instr i => exec i s
    | .anomaly k => .next (recordAnomaly k s)
    | .refused r => .next (s.markRefused r)

/-- A cycle does not fetch: halted, or `PC >= N` (43_cycle_sequencer.md R88). -/
abbrev Stopped (s : State) : Prop := s.halted = true ∨ s.cfg.capacity ≤ s.pc

/-- A marked state has no transition and gives no value (43_cycle_sequencer.md R96). -/
def unlessRefused {α : Type} (s : State) (go : Host.Outcome α Fault Refusal) : Host.Outcome α Fault Refusal :=
  match s.refused with
  | some r => .refused (.instructionText r)
  | none => go

/-- What a cycle answers after its fetch and its decode-execute: no value if the text was refused, else the state
and whether execution should continue (43_cycle_sequencer.md R88). -/
def finishCycle : Host.Outcome State Fault Refusal → Host.Outcome (State × Bool) Fault Refusal
  | .next t => unlessRefused t (.next (t, !t.halted))
  | .fault e => .fault e
  | .refused r => .refused r

/-- `step()` of 43_cycle_sequencer.md R88, with the value it returns. -/
def runCycle (s : State) : Host.Outcome (State × Bool) Fault Refusal :=
  unlessRefused s (if Stopped s then .next (s, false) else finishCycle (decodeExecute (fetch s)))

/-- `repeat c <- step() until c = false`, in at most so many calls (43_cycle_sequencer.md R90). -/
def runLoop : Nat → State → Host.Outcome State Fault Refusal
  | 0, s => .next s
  | k + 1, s =>
    match runCycle s with
    | .next (t, true) => runLoop k t
    | .next (t, false) => .next t
    | .fault e => .fault e
    | .refused r => .refused r

/-- The most calls of `step()` a run can make: `max(0, N - PC) + 1` (43_cycle_sequencer.md R91). Log entry 10. -/
def runCalls (s : State) : Nat := (s.cfg.capacity - s.pc) + 1

/-- `run()` of 43_cycle_sequencer.md R90, with the log it returns. -/
def runProgram (s : State) : Host.Outcome (State × List Event) Fault Refusal :=
  unlessRefused s
    (mapNext (fun t => (t.emit .runEnd, (t.emit .runEnd).log)) (runLoop (runCalls s) (s.clearLog.emit .runStart)))

end Sys2Proof.Machine
end

