-- ==== Sys2Proof/Machine/HostPort.lean ====
section
/-!
DEFINITION. The host's operations (43_cycle_sequencer.md R80): its memory ports, reset, reads, and one operation
as a transition with a reply.
-/

namespace Sys2Proof.Machine

open Sys2Proof

/-! ## Memory ports (20_memory.md section 3) -/

/-- `setInstruction(a, s)`: the tag and the text, not the data; out of range nothing (20_memory.md R35). -/
def setInstruction (a : Int) (txt : Text) (s : State) : State :=
  if InRange s a then
    s.setMem { s.mem with
      tag := viewWrite false s.mem.tag a.toNat true
      text := viewWrite [] s.mem.text a.toNat txt }
  else s

/-- `setData(a, v)`: exactly `MemWrite(a, 1, v)` (20_memory.md R36). -/
def setData (a : Int) (v : Value) (s : State) : State := memWrite a v s

/-- `clear()`: every cell to its defaults, nothing else (20_memory.md R37). -/
def clearMemory (s : State) : State := s.setMem Memory.blank

/-- A record of `dump`: the address, the tag and the view the tag selects (20_memory.md R39). -/
inductive DumpRecord where
  | instruction (addr : Nat) (text : Text)
  | data (addr : Nat) (value : Value)
  deriving DecidableEq, Repr

/-- The record of one cell. -/
def dumpRecord (s : State) (a : Nat) : DumpRecord :=
  if tagRead a s then .instruction a (fetchText a s) else .data a (memRead a s)

/-- `dump(start, end)`: one record per address in `[max(start, 0), min(end, N))`, in rising order
(20_memory.md R39). -/
def dump (start stop : Int) (s : State) : List DumpRecord :=
  let lo := start.toNat
  let hi := min stop.toNat s.cfg.capacity
  (List.range' lo (hi - lo)).map (dumpRecord s)

/-! ## Reset, boot, reads -/

/-- `reset()`: the register file, memory, `halted` and the log; N and the refusal mark stay
(70_reset_and_hazards.md R114). The count of draws stays too: a draw after a reset is a new one (log entry 3). -/
def hostReset (s : State) : State :=
  let c := clearMemory s
  { c with ac := 0, pc := 0, ir := [], mar := 0, mdr := [], halted := false, log := [] }

/-- Loading a program: its instruction texts, then its data values (70_reset_and_hazards.md R118). -/
def loadProgram (p : Program) (s : State) : State :=
  p.data.foldl (fun t e => setData e.1 e.2 t) (p.instructions.foldl (fun t e => setInstruction e.1 e.2 t) s)

/-- The register snapshot (10_state.md R11): five values, in this order. -/
structure Snapshot where
  ac : Value
  pc : Nat
  ir : Text
  mar : Nat
  mdr : Text
  deriving DecidableEq, Repr

/-- Reading the snapshot (10_state.md R11). -/
def snapshot (s : State) : Snapshot := { ac := s.ac, pc := s.pc, ir := s.ir, mar := s.mar, mdr := s.mdr }

/-! ## One host operation -/

/-- The operations of 43_cycle_sequencer.md R80 on a constructed core. -/
inductive HostOp where
  | reset
  | step
  | run
  | setInstruction (a : Int) (txt : Text)
  | setData (a : Int) (v : Value)
  | clear
  | getValue (a : Int)
  | getInstruction (a : Int)
  | isInstructionAddress (a : Int)
  | dump (start stop : Int)
  | snapshot
  | readHalted
  | readLog
  | status
  deriving DecidableEq, Repr

/-- What an operation returns. -/
inductive Reply where
  | nothing
  | bool (b : Bool)
  | value (v : Value)
  | text (t : Text)
  | events (l : List Event)
  | records (l : List DumpRecord)
  | registers (r : Snapshot)
  | status (st : Status)
  deriving DecidableEq, Repr

/-- One operation on a state that is not marked: the state after it and its reply (43_cycle_sequencer.md R80). -/
def hostApply (s : State) : HostOp → Host.Outcome (State × Reply) Fault Refusal
  | .reset => .next (hostReset s, .nothing)
  | .step => mapNext (fun r => (r.1, .bool r.2)) (runCycle s)
  | .run => mapNext (fun r => (r.1, .events r.2)) (runProgram s)
  | .setInstruction a txt => .next (setInstruction a txt s, .nothing)
  | .setData a v => .next (setData a v s, .nothing)
  | .clear => .next (clearMemory s, .nothing)
  | .getValue a => .next (s, .value (memRead a s))
  | .getInstruction a => .next (s, .text (fetchText a s))
  | .isInstructionAddress a => .next (s, .bool (tagRead a s))
  | .dump start stop => .next (s, .records (dump start stop s))
  | .snapshot => .next (s, .registers (snapshot s))
  | .readHalted => .next (s, .bool s.halted)
  | .readLog => .next (s, .events s.log)
  | .status => .next (s, .status (status s))

/-- One host operation; a marked state has no transition, reset included (43_cycle_sequencer.md R96). -/
def hostStep (op : HostOp) (s : State) : Host.Outcome (State × Reply) Fault Refusal :=
  unlessRefused s (hostApply s op)

/-- Host operations one after another (20_memory.md R47), with the replies in order. -/
def hostSession : List HostOp → State → Host.Outcome (State × List Reply) Fault Refusal
  | [], s => .next (s, [])
  | op :: ops, s =>
    match hostStep op s with
    | .next (t, r) => mapNext (fun q => (q.1, r :: q.2)) (hostSession ops t)
    | .fault e => .fault e
    | .refused r => .refused r

end Sys2Proof.Machine
end

