-- ==== Sys2Proof/Machine/Step.lean ====
section
/-!
DEFINITION. One step of the machine is one cycle (43_cycle_sequencer.md R88, R97).
-/

namespace Sys2Proof.Machine

open Sys2Proof

/-- One cycle, without the value it returns to the host; `runCycle` keeps it. Log entry 5. -/
def step (s : State) : Host.Outcome State Fault Refusal := mapNext Prod.fst (runCycle s)

/-- The text of a numbered word placed where the next fetch reads, as the host's `setInstruction` places it
(20_memory.md R35). Log entries 7 and 8. -/
def State.withFetchWord (s : State) (nbits w : Nat) : State :=
  setInstruction s.pc (textOfWord nbits w) s

end Sys2Proof.Machine
end

