-- ==== Sys2Proof/Safety.lean ====
section
/-!
DEFINITION. The terms claims are stated in: when a step will fetch, what the text at PC decodes to, the invariant.
-/

namespace Sys2Proof.Machine

open Sys2Proof

/-- A step from `s` fetches: no refusal mark, not halted, `PC < N` (43_cycle_sequencer.md R88). -/
abbrev Fetches (s : State) : Prop := s.refused = none ∧ s.halted = false ∧ s.pc < s.cfg.capacity

/-- What the cell at `a` decodes to. -/
def decodedAt (a : Int) (s : State) : Decoded := decode s.cfg.extraTokens (fetchText a s)

/-- The text is in the alphabet, its first token is `op`, the tokens after it are `rest`, and it has extra tokens
only where `EXTRA_TOKENS` is `ignore` (30_encoding.md R54, R58, R60). -/
def Spells (x : ExtraTokens) (txt op : Text) (rest : List Text) : Prop :=
  txt.all isAdmitted = true ∧ tokens txt = op :: rest ∧ (x = .refuse → rest.length ≤ arity op)

/-- `op` is none of the five opcode names (30_encoding.md R66). -/
def UnknownOpcode (op : Text) : Prop := op ≠ opLOAD ∧ op ≠ opSTORE ∧ op ≠ opADD ∧ op ≠ opSUB ∧ op ≠ opHLT

/-- No cell from PC on holds a text the spec refuses. -/
def NoRefusedText (s : State) : Prop := ∀ (a : Nat) (r : RefusalReason), s.pc ≤ a → decodedAt a s ≠ .refused r

/-- The fetch addresses the log records, in order. -/
def logPcs (s : State) : List Nat := s.log.filterMap Event.pc?

/-- A write to the data view by either port, or a `clear()` (20_memory.md R46). -/
def dataWrite : Option (Int × Value) → State → State
  | some (a, v) => setData a v
  | none => clearMemory

/-- `k` single steps one after another, stopping at the first that has no next state. -/
def stepTimes : Nat → State → Host.Outcome State Fault Refusal
  | 0, s => .next s
  | k + 1, s =>
    match step s with
    | .next t => stepTimes k t
    | .fault e => .fault e
    | .refused r => .refused r

/-- ADD (true) or SUB (false) of an address (41_arithmetic.md R77). -/
def arithmeticInstr (o : Bool × Int) : Instr := if o.1 then .add o.2 else .sub o.2

/-- The accumulator `v` after ADD (true) or SUB (false) of the data value of an address (41_arithmetic.md R77). -/
def arithmeticValue (s : State) (v : Value) (o : Bool × Int) : Value :=
  if o.1 then v + memRead o.2 s else v - memRead o.2 s

/-- `CyclesUntilFalse s t`: cycles from `s`, as many as it takes, each returning true but the last, which returns
false and leaves `t`: "repeat c <- step() until c = false" (43_cycle_sequencer.md R90), with no bound on the calls. -/
inductive CyclesUntilFalse : State → State → Prop where
  | last {s t : State} : runCycle s = .next (t, false) → CyclesUntilFalse s t
  | more {s t u : State} : runCycle s = .next (t, true) → CyclesUntilFalse t u → CyclesUntilFalse s u

/-- What holds of every state reached from reset: a safe state. -/
structure SafeState (s : State) : Prop where
  /-- memory is in its canonical form -/
  memWf : s.mem.wf s.cfg.capacity = true
  /-- an untagged cell has no text (10_state.md R25) -/
  textTagged : ∀ a : Int, tagRead a s = false → fetchText a s = []
  /-- `PC <= N` (10_state.md R13) -/
  pcBound : s.pc ≤ s.cfg.capacity
  /-- the reset values, or the equalities after a fetch (10_state.md R17) -/
  fetchRegisters : (s.pc = 0 ∧ s.mar = 0 ∧ s.mdr = [] ∧ s.ir = []) ∨ (s.pc = s.mar + 1 ∧ s.mdr = s.ir)
  /-- `halted` is set only by HLT, whose text IR still holds (10_state.md R14, R18) -/
  haltedByHlt : s.halted = true → decode s.cfg.extraTokens s.ir = .instr .hlt
  /-- the state is one the hardware can be in (10_state.md R7) -/
  unrefused : s.refused = none
  /-- at most one event per fetched address, in the order of the fetches, all before PC -/
  logOrdered : (logPcs s).Pairwise (· < ·) ∧ ∀ p ∈ logPcs s, p < s.pc

end Sys2Proof.Machine
end

