-- ==== Sys2Proof/Certificates/Slice0/Obligations.lean ====
section
/-!
DEFINITION. The statements for the provers, in the order of OBLIGATIONS.json.
-/

open Sys2Proof Sys2Proof.Machine

/-! ## Encoding (30_encoding.md) -/

/-- Decode and encode agree: every instruction, with every operand, under either value of `EXTRA_TOKENS`, is read
back from its canonical text (30_encoding.md sections 4 and 6). -/
def Obligations.DecodeReadsBackEncode : Prop :=
  ∀ (x : ExtraTokens) (i : Instr), i.wf = true → decode x (encode i) = .instr i

/-- The same through numbered words, a representation of the model's own (log entry 7). -/
def Obligations.TableWordReadsBack : Prop :=
  ∀ i : Instr, i.wf = true → decodeTableWord (encodeTableWord i).1 (encodeTableWord i).2 = some i

/-- `tokens` gives the words of a text, left to right, whatever whitespace stands around them; each piece is
non-empty and holds no whitespace, and no other character is lost (30_encoding.md section 2); the whitespace
characters are SP, HT, LF, VT, FF, CR, the spec's decision D3. -/
def Obligations.TokensAreTheSpacedWords : Prop :=
  (∀ c : Char, isWhitespace c = true ↔ c ∈ [' ', '\t', '\n', '\x0b', '\x0c', '\r']) ∧
  (∀ (lead last : Text) (words : List (Text × Text)),
    lead.all isWhitespace = true → last.all (fun c => !isWhitespace c) = true →
    (∀ p ∈ words, p.1 ≠ [] ∧ p.1.all (fun c => !isWhitespace c) = true ∧ p.2 ≠ [] ∧ p.2.all isWhitespace = true) →
    tokens (lead ++ words.flatMap (fun p => p.1 ++ p.2) ++ last) =
      words.map Prod.fst ++ (if last = [] then [] else [last])) ∧
  (∀ s : Text, (∀ w ∈ tokens s, w ≠ [] ∧ w.all (fun c => !isWhitespace c) = true) ∧
    (tokens s).flatten = s.filter (fun c => !isWhitespace c))

/-- The operand tokens: a canonical token has the value of its digits, the first the most significant, negated by a
`-` sign; which characters are digits, which tokens are canonical and which ambiguous, and no others
(30_encoding.md section 3; the grammar is the spec's decision D4, log entry 11, the ambiguous tokens its D5). -/
def Obligations.ParseIntIsThePositionalValue : Prop :=
  (∀ ds : Text, ds ≠ [] → ds.all isDigit = true →
    let value : Nat := ((List.range ds.length).map
      fun i => digitValue (ds.getD i '0') * 10 ^ (ds.length - 1 - i)).sum
    (isCanonical ds = true ∧ parseInt ds = (value : Int)) ∧
    (isCanonical ('+' :: ds) = true ∧ parseInt ('+' :: ds) = (value : Int)) ∧
    (isCanonical ('-' :: ds) = true ∧ parseInt ('-' :: ds) = -(value : Int))) ∧
  (∀ c : Char, isDigit c = true ↔
    ∃ k : Nat, ['0', '1', '2', '3', '4', '5', '6', '7', '8', '9'][k]? = some c ∧ digitValue c = k) ∧
  (∀ t : Text, isCanonical t = true ↔
    ∃ ds, ds ≠ [] ∧ ds.all isDigit = true ∧ (t = ds ∨ t = '+' :: ds ∨ t = '-' :: ds)) ∧
  (∀ t : Text, isAmbiguous t = true ↔
    ∃ ds, '_' ∈ ds ∧ ds.any isDigit = true ∧ (∀ c ∈ ds, isDigit c = true ∨ c = '_') ∧
      (t = ds ∨ t = '+' :: ds ∨ t = '-' :: ds))

/-- Which texts decode to which instruction: exactly those that spell it, whatever their extra tokens where these are
ignored (30_encoding.md sections 2 to 5; D4, D6). -/
def Obligations.DecodeGivesAnInstructionExactlyWhenSpelled : Prop :=
  ∀ (x : ExtraTokens) (txt : Text) (a : Int),
    (decode x txt = .instr (.load a) ↔
      ∃ t rest, Spells x txt opLOAD (t :: rest) ∧ isCanonical t = true ∧ parseInt t = a) ∧
    (decode x txt = .instr (.store a) ↔
      ∃ t rest, Spells x txt opSTORE (t :: rest) ∧ isCanonical t = true ∧ parseInt t = a) ∧
    (decode x txt = .instr (.add a) ↔
      ∃ t rest, Spells x txt opADD (t :: rest) ∧ isCanonical t = true ∧ parseInt t = a) ∧
    (decode x txt = .instr (.sub a) ↔
      ∃ t rest, Spells x txt opSUB (t :: rest) ∧ isCanonical t = true ∧ parseInt t = a) ∧
    (decode x txt = .instr .hlt ↔ ∃ rest, Spells x txt opHLT rest)

/-- Which texts are an anomaly, and which: the tests for a missing and an invalid operand come before the opcode is
looked up (30_encoding.md section 4; the order: D7). -/
def Obligations.DecodeGivesAnAnomalyExactlyWhen : Prop :=
  ∀ (x : ExtraTokens) (txt : Text),
    (decode x txt = .anomaly .missingOperand ↔ ∃ op, Spells x txt op [] ∧ op ≠ opHLT) ∧
    (decode x txt = .anomaly .invalidOperand ↔
      ∃ op t rest, Spells x txt op (t :: rest) ∧ op ≠ opHLT ∧ isCanonical t = false ∧ isAmbiguous t = false) ∧
    (decode x txt = .anomaly .unknownInstruction ↔
      ∃ op t rest, Spells x txt op (t :: rest) ∧ UnknownOpcode op ∧ isCanonical t = true)

/-- Which texts are blank and which are refused, and why; the alphabet is 0x20 to 0x7E, HT, LF, VT, FF, CR
(30_encoding.md sections 1, 2, 4; the spec's decisions D2, D5, D6). -/
def Obligations.DecodeRefusesExactlyWhen : Prop :=
  ∀ (x : ExtraTokens) (txt : Text),
    (∀ c : Char, isAdmitted c = true ↔
      (0x20 ≤ c.toNat ∧ c.toNat ≤ 0x7E) ∨ c ∈ ['\t', '\n', '\x0b', '\x0c', '\r']) ∧
    (decode x txt = .blank ↔ txt.all isWhitespace = true) ∧
    (decode x txt = .refused .nonAsciiText ↔ ∃ c ∈ txt, isAdmitted c = false) ∧
    (decode x txt = .refused .extraTokens ↔
      x = .refuse ∧ txt.all isAdmitted = true ∧ ∃ op rest, tokens txt = op :: rest ∧ arity op < rest.length) ∧
    (decode x txt = .refused .ambiguousOperand ↔
      ∃ op t rest, Spells x txt op (t :: rest) ∧ op ≠ opHLT ∧ isAmbiguous t = true)

/-- Five texts written out, one per instruction: `LOAD 10` and `HLT` of 95_test_vectors.md section 2, `STORE -1` of its
program P2, and an ADD and a SUB made from the rules: whitespace around the tokens (30_encoding.md section 2; D3), and
an operand with a leading plus and a leading zero, which is the spec's decision D4 (log entry 11, unsafe). -/
def Obligations.WrittenOutTextsDecode : Prop :=
  decode .ignore ['L', 'O', 'A', 'D', ' ', '1', '0'] = .instr (.load 10) ∧
  decode .ignore ['S', 'T', 'O', 'R', 'E', ' ', '-', '1'] = .instr (.store (-1)) ∧
  decode .ignore [' ', ' ', 'A', 'D', 'D', '\t', ' ', '7', ' '] = .instr (.add 7) ∧
  decode .ignore ['S', 'U', 'B', ' ', '+', '0', '7'] = .instr (.sub 7) ∧
  decode .ignore ['H', 'L', 'T'] = .instr .hlt

/-! ## Memory and its ports (20_memory.md) -/

/-- No access to an address outside `[0, N)` changes anything: reads give the defaults, writes do nothing
(20_memory.md R34). -/
def Obligations.OutOfRangeAccessesGiveDefaults : Prop :=
  ∀ (a : Int) (s : State), (a < 0 ∨ (s.cfg.capacity : Int) ≤ a) →
    memRead a s = 0 ∧ fetchText a s = [] ∧ tagRead a s = false ∧
    (∀ v, memWrite a v s = s ∧ setData a v s = s) ∧ (∀ txt, setInstruction a txt s = s)

/-- `MemWrite`, and `setData` through the host port, set one data cell in range and nothing else: no other data cell,
no text, no tag, no register, no event (20_memory.md R31, R36). -/
def Obligations.MemWriteSetsOneDataCell : Prop :=
  ∀ (a : Int) (v : Value) (s : State),
    (InRange s a → memRead a (memWrite a v s) = v) ∧
    (∀ b, b ≠ a → memRead b (memWrite a v s) = memRead b s) ∧
    (∀ b, fetchText b (memWrite a v s) = fetchText b s ∧ tagRead b (memWrite a v s) = tagRead b s) ∧
    { memWrite a v s with mem := s.mem } = s ∧
    (¬InRange s a → memWrite a v s = s) ∧
    setData a v s = memWrite a v s ∧
    (s.refused = none → hostStep (.setData a v) s = .next (memWrite a v s, .nothing))

/-- `setInstruction`, and the host port of that name, set one cell's tag and text (20_memory.md section 3); that its
data value stays is the spec's decision D18 (log entry 12, unsafe). -/
def Obligations.SetInstructionSetsTextAndTag : Prop :=
  ∀ (a : Int) (txt : Text) (s : State),
    (InRange s a → fetchText a (setInstruction a txt s) = txt ∧ tagRead a (setInstruction a txt s) = true) ∧
    (∀ b, b ≠ a → fetchText b (setInstruction a txt s) = fetchText b s ∧
      tagRead b (setInstruction a txt s) = tagRead b s) ∧
    (∀ b, memRead b (setInstruction a txt s) = memRead b s) ∧
    { setInstruction a txt s with mem := s.mem } = s ∧
    (¬InRange s a → setInstruction a txt s = s) ∧
    (s.refused = none → hostStep (.setInstruction a txt) s = .next (setInstruction a txt s, .nothing))

/-- `clear()` gives every cell its defaults and leaves the registers, `halted`, the log and N (20_memory.md R37);
the spec has reset call it. -/
def Obligations.ClearRestoresEveryCell : Prop :=
  ∀ s : State, s.refused = none →
    ∃ t, hostStep .clear s = .next (t, .nothing) ∧
      (∀ a, memRead a t = 0 ∧ fetchText a t = [] ∧ tagRead a t = false) ∧ { t with mem := s.mem } = s ∧
      (hostReset s).mem = t.mem

/-- The read ports return the three access primitives and change no state (20_memory.md R38). -/
def Obligations.ReadPortsReturnTheViews : Prop :=
  ∀ (a : Int) (s : State), s.refused = none →
    hostStep (.getValue a) s = .next (s, .value (memRead a s)) ∧
    hostStep (.getInstruction a) s = .next (s, .text (fetchText a s)) ∧
    hostStep (.isInstructionAddress a) s = .next (s, .bool (tagRead a s))

/-- The snapshot holds the five registers in order, the other reads give `halted`, the log, the status, which tests
`halted` before `PC >= N`, and the records of `dump`; none changes any state (10_state.md sections 2 to 4, 20_memory.md
section 3, 43_cycle_sequencer.md sections 1 and 4). That `halted` and the status can be read is the spec's decision
D15. -/
def Obligations.ObservationsChangeNothing : Prop :=
  ∀ (s : State) (start stop : Int), s.refused = none →
    hostStep .snapshot s = .next (s, .registers ⟨s.ac, s.pc, s.ir, s.mar, s.mdr⟩) ∧
    hostStep .readHalted s = .next (s, .bool s.halted) ∧
    hostStep .readLog s = .next (s, .events s.log) ∧
    (∃ st, hostStep .status s = .next (s, .status st) ∧ (st = .halted ↔ s.halted = true) ∧
      (st = .outOfBounds ↔ s.halted = false ∧ s.cfg.capacity ≤ s.pc)) ∧
    hostStep (.dump start stop) s = .next (s, .records (dump start stop s))

/-- `dump` gives one record per cell address in `[start, stop)`, in rising order, of the view the tag selects; that a
negative start is read as 0 is the spec's decision D19 (20_memory.md section 3; log entry 12). -/
def Obligations.DumpRecordsTheRange : Prop :=
  ∀ (start stop : Int) (s : State),
    dump start stop s =
      ((List.range s.cfg.capacity).filter fun a : Nat => decide (start ≤ (a : Int) ∧ (a : Int) < stop)).map
        fun a : Nat => if tagRead a s then .instruction a (fetchText a s) else .data a (memRead a s)

/-- A read returns the last value written to its address, or the default of a later `clear()`, or what the cell held
before (20_memory.md section 6). -/
def Obligations.ReadReturnsTheLastWrite : Prop :=
  ∀ (a : Int) (s : State) (ws : List (Option (Int × Value))), InRange s a →
    memRead a (ws.foldl (fun t w => dataWrite w t) s) =
      match (ws.filter fun w => match w with | some (b, _) => decide (b = a) | none => true).getLast? with
      | some (some (_, v)) => v
      | some none => 0
      | none => memRead a s

/-- Memories in canonical form whose cells read the same are the same data: the model's own representation
(log entry 9). -/
def Obligations.CanonicalMemoriesAreDetermined : Prop :=
  ∀ s t : State, s.cfg = t.cfg → s.mem.wf s.cfg.capacity = true → t.mem.wf t.cfg.capacity = true →
    (∀ a : Int, memRead a s = memRead a t ∧ fetchText a s = fetchText a t ∧ tagRead a s = tagRead a t) →
    s.mem = t.mem

/-! ## The instructions (40_data_transfer.md, 41_arithmetic.md, 42_halt.md) -/

/-- LOAD, whole: its encoding, the new AC, the event, nothing else changed, and the corner cases of an address out of
range and of an instruction cell (40_data_transfer.md R71). -/
def Obligations.LoadReplacesTheAccumulator : Prop :=
  ∀ (a : Int) (s : State),
    exec (.load a) s = .next { s with
      ac := memRead a s
      log := s.log ++ [.load (s.pc - 1) s.ir a s.ac (memRead a s)] } ∧
    ((a < 0 ∨ (s.cfg.capacity : Int) ≤ a) → memRead a s = 0) ∧
    (∀ texts tags, memRead a { s with mem := { s.mem with text := texts, tag := tags } } = memRead a s) ∧
    (∀ x txt t rest, Spells x txt opLOAD (t :: rest) → isCanonical t = true →
      decode x txt = .instr (.load (parseInt t)))

/-- STORE: the cell in range holds AC and the event tells its old and new value; out of range nothing is stored and
the event's after-value is AC or 0, a free value (40_data_transfer.md R72; the draw: D13, log entry 3). -/
def Obligations.StoreWritesTheAccumulator : Prop :=
  ∀ (a : Int) (s : State), ∃ t m, exec (.store a) s = .next t ∧
    t.log = s.log ++ [.store (s.pc - 1) s.ir a (memRead a s) m] ∧
    (InRange s a → memRead a t = s.ac ∧ m = s.ac ∧ t.draws = s.draws) ∧
    (¬InRange s a → t.mem = s.mem ∧ (m = 0 ∨ m = s.ac) ∧ t.draws = s.draws + 1) ∧
    t.halted = s.halted ∧ t.ac = s.ac ∧
    (∀ x txt w rest, Spells x txt opSTORE (w :: rest) → isCanonical w = true →
      decode x txt = .instr (.store (parseInt w)))

/-- ADD, whole: its encoding, exact addition, the event, nothing else changed, and an operand out of range or
naming an instruction cell (41_arithmetic.md R75). -/
def Obligations.AddAddsExactly : Prop :=
  ∀ (a : Int) (s : State),
    exec (.add a) s = .next { s with
      ac := s.ac + memRead a s
      log := s.log ++ [.add (s.pc - 1) s.ir a s.ac (s.ac + memRead a s)] } ∧
    ((a < 0 ∨ (s.cfg.capacity : Int) ≤ a) → s.ac + memRead a s = s.ac) ∧
    (∀ texts tags, memRead a { s with mem := { s.mem with text := texts, tag := tags } } = memRead a s) ∧
    (∀ x txt t rest, Spells x txt opADD (t :: rest) → isCanonical t = true →
      decode x txt = .instr (.add (parseInt t)))

/-- SUB, whole: its encoding, exact subtraction from the accumulator, the event, nothing else changed, and an
operand out of range or naming an instruction cell (41_arithmetic.md R76). -/
def Obligations.SubSubtractsExactly : Prop :=
  ∀ (a : Int) (s : State),
    exec (.sub a) s = .next { s with
      ac := s.ac - memRead a s
      log := s.log ++ [.sub (s.pc - 1) s.ir a s.ac (s.ac - memRead a s)] } ∧
    ((a < 0 ∨ (s.cfg.capacity : Int) ≤ a) → s.ac - memRead a s = s.ac) ∧
    (∀ texts tags, memRead a { s with mem := { s.mem with text := texts, tag := tags } } = memRead a s) ∧
    (∀ x txt t rest, Spells x txt opSUB (t :: rest) → isCanonical t = true →
      decode x txt = .instr (.sub (parseInt t)))

/-- HLT, whole: its encoding with and without extra tokens, that a one-token text with another opcode is a missing
operand, the event, `halted`, nothing else changed, and the status Halted wherever PC is (42_halt.md R78). -/
def Obligations.HltHalts : Prop :=
  ∀ s : State,
    exec .hlt s = .next { s with halted := true, log := s.log ++ [.halt (s.pc - 1) s.ir] } ∧
    (∀ t, exec .hlt s = .next t → status t = .halted) ∧
    (∀ txt rest, txt.all isAdmitted = true → tokens txt = opHLT :: rest →
      decode .ignore txt = .instr .hlt ∧
      (rest = [] → decode .refuse txt = .instr .hlt) ∧
      (rest ≠ [] → decode .refuse txt = .refused .extraTokens)) ∧
    (∀ x txt op, txt.all isAdmitted = true → tokens txt = [op] → op ≠ opHLT →
      decode x txt = .anomaly .missingOperand)

/-- The frame of the instructions that store nothing (LOAD, ADD, SUB, HLT): all of memory, PC, IR, MAR, MDR, the
parameters, the refusal mark and the draws are unchanged, the log grows by one event; LOAD, ADD and SUB leave `halted`,
HLT leaves AC (40_data_transfer.md, 41_arithmetic.md, 42_halt.md; the draws are the model's own, log entry 3). -/
def Obligations.NonStoringInstructionsFrame : Prop :=
  ∀ (i : Instr) (s t : State), (∀ a, i ≠ .store a) → exec i s = .next t →
    (∀ a : Int, memRead a t = memRead a s ∧ fetchText a t = fetchText a s ∧ tagRead a t = tagRead a s) ∧
    t.pc = s.pc ∧ t.ir = s.ir ∧ t.mar = s.mar ∧ t.mdr = s.mdr ∧ t.cfg = s.cfg ∧ t.refused = s.refused ∧
    t.draws = s.draws ∧ (∃ e, t.log = s.log ++ [e]) ∧
    (i ≠ .hlt → t.halted = s.halted) ∧ (i = .hlt → t.ac = s.ac)

/-- The frame of STORE: every data cell but the one at the effective address, every text, every tag, every register,
`halted`, the parameters and the refusal mark are unchanged, the log grows by one event
(40_data_transfer.md). -/
def Obligations.StoreFrame : Prop :=
  ∀ (a : Int) (s t : State), exec (.store a) s = .next t →
    (∀ b : Int, b ≠ effectiveAddress a s → memRead b t = memRead b s) ∧
    (∀ b : Int, fetchText b t = fetchText b s ∧ tagRead b t = tagRead b s) ∧
    t.ac = s.ac ∧ t.pc = s.pc ∧ t.ir = s.ir ∧ t.mar = s.mar ∧ t.mdr = s.mdr ∧ t.halted = s.halted ∧
    t.cfg = s.cfg ∧ t.refused = s.refused ∧ (∃ e, t.log = s.log ++ [e])

/-- STORE then LOAD of one address: in range AC is unchanged, out of range it becomes 0
(70_reset_and_hazards.md section 3; 90_conflicts.md C4). -/
def Obligations.StoreThenLoadRoundTrip : Prop :=
  ∀ (a : Int) (s : State), ∃ t u, exec (.store a) s = .next t ∧ exec (.load a) t = .next u ∧
    (InRange s a → u.ac = s.ac) ∧ (¬InRange s a → u.ac = 0 ∧ u.mem = s.mem)

/-- No instruction writes PC or any instruction text or tag: a program cannot jump and cannot modify itself
(20_memory.md section 6, 43_cycle_sequencer.md section 5). -/
def Obligations.NoInstructionWritesPcOrText : Prop :=
  ∀ (i : Instr) (s : State), ∃ t, exec i s = .next t ∧ t.pc = s.pc ∧ t.mem.text = s.mem.text ∧
    t.mem.tag = s.mem.tag

/-- The fold property: a LOAD and then any ADDs and SUBs, one per cycle, leave in AC the exact left-to-right sum and
difference of the data values, whatever their size (41_arithmetic.md R77). -/
def Obligations.ArithmeticProgramFolds : Prop :=
  ∀ (s : State) (a : Int) (ops : List (Bool × Int)),
    s.refused = none → s.halted = false → s.pc + ops.length + 1 ≤ s.cfg.capacity →
    decodedAt s.pc s = .instr (.load a) →
    (∀ k : Nat, ∀ o, ops[k]? = some o → decodedAt ((s.pc + 1 + k : Nat) : Int) s = .instr (arithmeticInstr o)) →
    ∃ t, stepTimes (ops.length + 1) s = .next t ∧
      t.ac = ops.foldl (arithmeticValue s) (memRead a s) ∧ t.mem = s.mem ∧ t.pc = s.pc + ops.length + 1 ∧
      t.halted = false ∧ t.refused = none

/-! ## The cycle (43_cycle_sequencer.md, 60_exceptions.md) -/

/-- Fetch: the four transfers, PC one further whatever the cell held, nothing else changed
(43_cycle_sequencer.md R83, R84). -/
def Obligations.FetchTransfersTheText : Prop :=
  ∀ s : State,
    fetch s = { s with mar := s.pc, mdr := fetchText s.pc s, ir := fetchText s.pc s, pc := s.pc + 1 } ∧
    (∀ cells : Memory, (fetch { s with mem := cells }).pc = s.pc + 1) ∧
    (∀ tags, fetch { s with mem := { s.mem with tag := tags } } =
      { fetch s with mem := { s.mem with tag := tags } })

/-- A step runs the decoded instruction: where the next cycle fetches a text that decodes to `i`, the step is `exec i`
on the state after fetch, and the cycle returns true unless it halted (43_cycle_sequencer.md sections 3 and 4). -/
def Obligations.StepRunsTheDecodedInstruction : Prop :=
  ∀ (s : State) (i : Instr), Fetches s → decodedAt s.pc s = .instr i →
    step s = exec i (fetch s) ∧
    ∃ t, exec i (fetch s) = .next t ∧ runCycle s = .next (t, !t.halted) ∧ t.pc = s.pc + 1 ∧ t.mar = s.pc ∧
      t.ir = fetchText s.pc s ∧ t.mdr = t.ir

/-- A text placed by `setInstruction` at PC is what the next step runs (70_reset_and_hazards.md section 3); that
`withFetchWord` places a numbered word so is the model's own (log entries 7 and 8). -/
def Obligations.PlacedTextIsFetchedNext : Prop :=
  ∀ (s : State) (i : Instr) (nbits w : Nat), Fetches s →
    decode s.cfg.extraTokens (textOfWord nbits w) = .instr i →
    ∃ t, step (s.withFetchWord nbits w) = .next t ∧ exec i (fetch (s.withFetchWord nbits w)) = .next t ∧
      t.ir = textOfWord nbits w ∧ { s.withFetchWord nbits w with mem := s.mem } = s

/-- A blank text: the fetch happens and nothing more, no event; decode-execute changes nothing for a blank text or on a
halted core, which no cycle shows it (43_cycle_sequencer.md R86). -/
def Obligations.BlankCellIsANoOp : Prop :=
  (∀ s : State, Fetches s → (fetchText s.pc s).all isWhitespace = true →
    runCycle s = .next ({ s with mar := s.pc, mdr := fetchText s.pc s, ir := fetchText s.pc s, pc := s.pc + 1 }, true)) ∧
  (∀ s : State, s.halted = true ∨ s.ir.all isWhitespace = true → decodeExecute s = .next s) ∧
  (∀ s : State, Fetches s → (fetch s).halted = false)

/-- The three anomalies: each records one event of its kind with the fetch address and the text, changes nothing else
and does not stop the core (60_exceptions.md section 1); the codes 6, 7 and 8 are the spec's decision D14 (log entry
18). -/
def Obligations.AnomaliesAreRecordedAndSkipped : Prop :=
  ∀ (s : State) (op : Text) (rest : List Text), Fetches s →
    Spells s.cfg.extraTokens (fetchText s.pc s) op rest → op ≠ opHLT →
    (rest = [] →
      runCycle s = .next ({ fetch s with log := s.log ++ [.missingOperand s.pc (fetchText s.pc s)] }, true)) ∧
    (∀ t more, rest = t :: more → isCanonical t = false → isAmbiguous t = false →
      runCycle s = .next ({ fetch s with log := s.log ++ [.invalidOperand s.pc (fetchText s.pc s)] }, true)) ∧
    (∀ t more, rest = t :: more → isCanonical t = true → UnknownOpcode op →
      runCycle s = .next ({ fetch s with log := s.log ++ [.unknownInstruction s.pc (fetchText s.pc s)] }, true)) ∧
    (∀ pc text, (Event.missingOperand pc text).code = 6 ∧ (Event.invalidOperand pc text).code = 7 ∧
      (Event.unknownInstruction pc text).code = 8)

/-- A refused text marks the state and ends the step with no value, and a marked state has no transition, reset
included: the spec's own refusal, no hardware behaviour (43_cycle_sequencer.md section 6; D2, D5, D6, D27). -/
def Obligations.RefusedTextHasNoTransition : Prop :=
  (∀ (s : State) (r : RefusalReason), Fetches s → decodedAt s.pc s = .refused r →
    decodeExecute (fetch s) = .next { fetch s with refused := some r } ∧
    step s = .refused (.instructionText r)) ∧
  (∀ (s : State) (r : RefusalReason) (op : HostOp), s.refused = some r →
    step s = .refused (.instructionText r) ∧ hostStep op s = .refused (.instructionText r))

/-- The cycle in its order: refused, stop test, fetch, decode-execute, the value returned; and the host's `step()` is
this cycle (43_cycle_sequencer.md R88). -/
def Obligations.CycleFollowsItsPhases : Prop :=
  ∀ s : State,
    (s.refused ≠ none → ∃ r, runCycle s = .refused r) ∧
    (s.refused = none → (s.halted = true ∨ s.cfg.capacity ≤ s.pc) → runCycle s = .next (s, false)) ∧
    (s.refused = none → s.halted = false → s.pc < s.cfg.capacity →
      ∃ t, decodeExecute (fetch s) = .next t ∧
        (t.refused = none → runCycle s = .next (t, !t.halted)) ∧
        (t.refused ≠ none → ∃ r, runCycle s = .refused r)) ∧
    (s.refused = none →
      (∀ t b, runCycle s = .next (t, b) → hostStep .step s = .next (t, .bool b)) ∧
      (∀ r, runCycle s = .refused r → hostStep .step s = .refused r))

/-- A cycle answers a next state from every unmarked state unless the text it fetches is refused: nothing else stops
the machine (60_exceptions.md section 1, 43_cycle_sequencer.md section 4). -/
def Obligations.OnlyARefusedTextStopsAStep : Prop :=
  ∀ s : State, (∃ t, step s = .next t) ↔
    s.refused = none ∧ (Fetches s → ∀ r, decodedAt s.pc s ≠ .refused r)

/-- A cycle returns true exactly when it fetched and did not execute HLT; one that did not fetch changed nothing
(43_cycle_sequencer.md section 4). -/
def Obligations.CycleReturnsWhetherToContinue : Prop :=
  ∀ (s t : State) (b : Bool), runCycle s = .next (t, b) →
    (b = true ↔ Fetches s ∧ decodedAt s.pc s ≠ .instr .hlt) ∧ (¬Fetches s → t = s ∧ b = false)

/-- The event of a cycle holds the fetch address, which is MAR, and the raw text, which is IR
(43_cycle_sequencer.md R87). -/
def Obligations.EventsHoldFetchAddressAndText : Prop :=
  ∀ (s t : State) (e : Event), step s = .next t → t.log = s.log ++ [e] →
    e.pc? = some (t.pc - 1) ∧ e.pc? = some t.mar ∧ e.text? = some t.ir

/-- A cycle that fetches appends exactly one event, but none for a blank text; one that does not fetch appends none
(43_cycle_sequencer.md section 3). -/
def Obligations.OneEventPerFetchingCycle : Prop :=
  ∀ s t : State, step s = .next t →
    (Fetches s → decodedAt s.pc s ≠ .blank → ∃ e, t.log = s.log ++ [e]) ∧
    (Fetches s → decodedAt s.pc s = .blank → t.log = s.log) ∧
    (¬Fetches s → t.log = s.log)

/-- The kind of a cycle's event tells what its text decoded to; the numeric codes of the kinds are the spec's decision
D14 (60_exceptions.md section 1). -/
def Obligations.EventKindTellsTheOutcome : Prop :=
  ∀ (s t : State) (e : Event), step s = .next t → t.log = s.log ++ [e] →
    match decodedAt s.pc s with
    | .instr (.load _) => e.code = 1
    | .instr (.store _) => e.code = 2
    | .instr (.add _) => e.code = 3
    | .instr (.sub _) => e.code = 4
    | .instr .hlt => e.code = 5
    | .anomaly .missingOperand => e.code = 6
    | .anomaly .invalidOperand => e.code = 7
    | .anomaly .unknownInstruction => e.code = 8
    | .blank => False
    | .refused _ => False

/-- Single steps accumulate events: a step keeps the log it finds in front, and runs the same whatever that log holds
(43_cycle_sequencer.md R95). -/
def Obligations.StepsAccumulateEvents : Prop :=
  (∀ s t : State, step s = .next t → ∃ new, t.log = s.log ++ new) ∧
  (∀ (s t : State) (earlier : List Event), step s = .next t →
    step { s with log := earlier ++ s.log } = .next { t with log := earlier ++ t.log })

/-- The sequencer takes PC + 1: a fetching step moves PC by one, any other leaves the state
(43_cycle_sequencer.md section 5). -/
def Obligations.PcAdvancesByOneCell : Prop :=
  ∀ s t : State, step s = .next t →
    (Fetches s → t.pc = s.pc + 1 ∧ t.pc ≤ s.cfg.capacity) ∧ (¬Fetches s → t = s)

/-- Nothing in a cycle reads the tags: with other tags it does the same and leaves them
(20_memory.md section 1, 10_state.md section 5). -/
def Obligations.CycleDoesNotReadTags : Prop :=
  ∀ (s t : State) (b : Bool) (tags : List (Nat × Bool)), runCycle s = .next (t, b) →
    runCycle { s with mem := { s.mem with tag := tags } } =
      .next ({ t with mem := { t.mem with tag := tags } }, b)

/-- Only LOAD, ADD and SUB change AC in a step, and only STORE changes data: its own cell, to AC
(10_state.md sections 2 and 5). -/
def Obligations.WritersOfAccumulatorAndData : Prop :=
  ∀ s t : State, step s = .next t →
    (t.ac ≠ s.ac → ∃ a, decodedAt s.pc s = .instr (.load a) ∨ decodedAt s.pc s = .instr (.add a) ∨
      decodedAt s.pc s = .instr (.sub a)) ∧
    (∀ b : Int, memRead b t ≠ memRead b s →
      InRange s b ∧ decodedAt s.pc s = .instr (.store b) ∧ memRead b t = s.ac)

/-! ## Runs and status -/

/-- A full run is: clear the log, append the start banner, cycle until one returns false, append the end banner, return
the log; a refusal ends it with no result; the host's `run()` is this run; no operation but it and reset clears the log
(43_cycle_sequencer.md R90). -/
def Obligations.RunRepeatsCyclesUntilFalse : Prop :=
  ∀ s : State, s.refused = none →
    (∀ t l, runProgram s = .next (t, l) ↔
      ∃ u, CyclesUntilFalse { s with log := [.runStart] } u ∧ t = { u with log := u.log ++ [.runEnd] } ∧ l = t.log) ∧
    ((∃ r, runProgram s = .refused r) ↔ ¬∃ u, CyclesUntilFalse { s with log := [.runStart] } u) ∧
    (Stopped s → runProgram s = .next ({ s with log := [.runStart, .runEnd] }, [.runStart, .runEnd])) ∧
    (∀ t l, runProgram s = .next (t, l) → hostStep .run s = .next (t, .events l)) ∧
    (∀ r, runProgram s = .refused r → hostStep .run s = .refused r) ∧
    (∀ t op r, hostStep op s = .next (t, r) → op ≠ .run → op ≠ .reset → ∃ new, t.log = s.log ++ new)

/-- Every run of a program with no refused text ends, stopped, with at most N - PC events between the banners
(43_cycle_sequencer.md section 4). -/
def Obligations.EveryRunEnds : Prop :=
  ∀ s : State, s.refused = none → NoRefusedText s →
    ∃ t l, runProgram s = .next (t, l) ∧ Stopped t ∧ t.log = l ∧
      l.length ≤ (s.cfg.capacity - s.pc) + 2 ∧ (∃ middle, l = .runStart :: middle ++ [.runEnd]) ∧
      s.pc ≤ t.pc ∧ t.pc ≤ max s.pc s.cfg.capacity

/-- The state machine: where each operation takes each status (43_cycle_sequencer.md R93). -/
def Obligations.StatusTransitions : Prop :=
  ∀ s : State, s.refused = none →
    (status s = .ready →
      (decodedAt s.pc s = .instr .hlt → ∃ t, runCycle s = .next (t, false) ∧ status t = .halted) ∧
      (decodedAt s.pc s ≠ .instr .hlt → (∀ r, decodedAt s.pc s ≠ .refused r) →
        ∃ t, runCycle s = .next (t, true) ∧
          (s.pc + 1 = s.cfg.capacity → status t = .outOfBounds) ∧ (s.pc + 1 ≠ s.cfg.capacity → status t = .ready)) ∧
      (∀ r, decodedAt s.pc s = .refused r → runCycle s = .refused (.instructionText r))) ∧
    (status s ≠ .ready → runCycle s = .next (s, false)) ∧
    (∀ t l, runProgram s = .next (t, l) → status t ≠ .ready ∧ (status s ≠ .ready → status t = status s)) ∧
    (∃ t, hostStep .reset s = .next (t, .nothing) ∧
      status t = if 0 < s.cfg.capacity then .ready else .outOfBounds) ∧
    (∀ t op r, hostStep op s = .next (t, r) → op ≠ .step → op ≠ .run → op ≠ .reset → status t = status s)

/-- Halted is terminal: after a HLT cycle, which returns false, every later cycle returns false and changes nothing, a
run only writes its banners, and only reset leaves the halted status (42_halt.md R79; 43_cycle_sequencer.md
section 4). -/
def Obligations.HaltedUntilReset : Prop :=
  (∀ s : State, Fetches s → decodedAt s.pc s = .instr .hlt →
    ∃ t, runCycle s = .next (t, false) ∧ t.halted = true ∧ runCycle t = .next (t, false) ∧
      runProgram t = .next ({ t with log := [.runStart, .runEnd] }, [.runStart, .runEnd])) ∧
  (∀ (s t : State) (op : HostOp) (r : Reply), s.halted = true → hostStep op s = .next (t, r) → op ≠ .reset →
    t.halted = true)

/-- `halted` is set only by a step or a run that executed HLT, whose text IR still holds (10_state.md section 3). -/
def Obligations.OnlyHltSetsHalted : Prop :=
  ∀ (s t : State) (op : HostOp) (r : Reply), s.halted = false → hostStep op s = .next (t, r) → t.halted = true →
    (op = .step ∨ op = .run) ∧ decode s.cfg.extraTokens t.ir = .instr .hlt

/-- No operation changes N or EXTRA_TOKENS (00_scope.md section 4). -/
def Obligations.ParametersNeverChange : Prop :=
  ∀ (s t : State) (op : HostOp) (r : Reply), hostStep op s = .next (t, r) → t.cfg = s.cfg

/-! ## Reset and boot (70_reset_and_hazards.md) -/

/-- Reset gives every element its reset value and keeps N (70_reset_and_hazards.md section 1). That the empty IR is the
empty text is the spec's decision D26 (log entry 13, unsafe); that a marked state has no transition is R96 and the
spec's decision D27 (log entry 4). -/
def Obligations.ResetReinitializesEverything : Prop :=
  ∀ s : State,
    (s.refused = none → ∃ t, hostStep .reset s = .next (t, .nothing) ∧
      t.ac = 0 ∧ t.pc = 0 ∧ t.ir = [] ∧ t.mar = 0 ∧ t.mdr = [] ∧ t.halted = false ∧ t.log = [] ∧
      (∀ a : Int, memRead a t = 0 ∧ fetchText a t = [] ∧ tagRead a t = false) ∧
      t.cfg = s.cfg ∧ t.refused = none) ∧
    (s.refused ≠ none → ∀ t r, hostStep .reset s ≠ .next (t, r))

/-- A newly constructed core is in the reset state, unmarked, and every read of a core after reset gives what it gives
on a fresh core of the same N (70_reset_and_hazards.md R115); the count of draws, the model's own (log entry 3), is left
out of the comparison. -/
def Obligations.FreshCoreEqualsResetCore : Prop :=
  ∀ s : State, s.refused = none →
    (State.construct s.cfg).refused = none ∧
    { hostReset s with draws := (State.construct s.cfg).draws } = State.construct s.cfg ∧
    (∀ op : HostOp, op ≠ .step → op ≠ .run →
      mapNext Prod.snd (hostStep op (hostReset s)) = mapNext Prod.snd (hostStep op (State.construct s.cfg)))

/-- After reset PC is 0, the status is Ready unless there is no cell, and the first cycle fetches the text of cell 0
(70_reset_and_hazards.md R116). -/
def Obligations.ResetStartsAtAddressZero : Prop :=
  ∀ s : State, s.refused = none →
    (hostReset s).pc = 0 ∧
    (0 < s.cfg.capacity → status (hostReset s) = .ready) ∧
    (s.cfg.capacity = 0 → status (hostReset s) = .outOfBounds) ∧
    (∀ txt : Text, 0 < s.cfg.capacity → (∀ r, decode s.cfg.extraTokens txt ≠ .refused r) →
      ∃ t, step (setInstruction 0 txt (hostReset s)) = .next t ∧ t.mar = 0 ∧ t.ir = txt ∧ t.pc = 1)

/-- Reset and then a run with no loading: N blank cells are fetched, no instruction event, PC ends at N
(70_reset_and_hazards.md section 3). At N = 0 nothing is fetched, and MAR and IR keep their reset values; that the
latter is the empty text is the spec's decision D26 (log entry 13, unsafe). -/
def Obligations.BlankMemoryRunsToTheEnd : Prop :=
  ∀ s : State, s.refused = none →
    ∃ t, runProgram (hostReset s) = .next (t, [.runStart, .runEnd]) ∧ t.pc = s.cfg.capacity ∧ t.ac = 0 ∧
      t.halted = false ∧ t.ir = [] ∧ t.mar = s.cfg.capacity - 1

/-- Loading a well-formed program puts every text and every data value in its cell and changes no other cell and no
register (70_reset_and_hazards.md section 2). That placing a text leaves the data value of its cell is the spec's
decision D18 (log entry 12, unsafe). -/
def Obligations.LoadingPlacesTheProgram : Prop :=
  ∀ (p : Program) (s : State), p.wf s.cfg.capacity = true →
    (∀ e ∈ p.instructions, fetchText e.1 (loadProgram p s) = e.2 ∧ tagRead e.1 (loadProgram p s) = true) ∧
    (∀ e ∈ p.data, memRead e.1 (loadProgram p s) = e.2) ∧
    (∀ a, a ∉ p.instructions.map Prod.fst →
      fetchText a (loadProgram p s) = fetchText a s ∧ tagRead a (loadProgram p s) = tagRead a s) ∧
    (∀ a, a ∉ p.data.map Prod.fst → memRead a (loadProgram p s) = memRead a s) ∧
    { loadProgram p s with mem := s.mem } = s

/-- The loading calls come in any order: the two kinds commute, and calls of one kind to distinct addresses commute, on
a memory in canonical form, the model's own representation (log entry 9) (70_reset_and_hazards.md section 2). That a
text and a data value of one cell commute is the spec's decision D18 (log entry 12, unsafe). -/
def Obligations.LoadingOrderIsFree : Prop :=
  ∀ s : State, s.mem.wf s.cfg.capacity = true →
    (∀ a txt b v, setData b v (setInstruction a txt s) = setInstruction a txt (setData b v s)) ∧
    (∀ a v b w, a ≠ b → setData b w (setData a v s) = setData a v (setData b w s)) ∧
    (∀ a txt b txt', a ≠ b →
      setInstruction b txt' (setInstruction a txt s) = setInstruction a txt (setInstruction b txt' s))

/-! ## The invariant -/

/-- A constructed core, `State.reset` among them, meets the invariant (10_state.md sections 2 to 5). The canonical form
is the model's own (log entry 9), and the empty IR of a fresh core is the spec's decision D26 (log entry 13). -/
def Obligations.FreshCoreIsSafe : Prop :=
  (∀ cfg : Config, SafeState (State.construct cfg)) ∧ SafeState State.reset

/-- Every step keeps the invariant: memory canonical, untagged cells without text, `PC <= N`, the fetch registers as
fetch left them, `halted` only after HLT, the log in the order of the fetches (10_state.md). -/
def Obligations.StepKeepsTheInvariant : Prop :=
  ∀ s t : State, SafeState s → step s = .next t → SafeState t

/-- So does every host operation, a full run and a reset among them (10_state.md; 43_cycle_sequencer.md section 1). -/
def Obligations.HostOperationKeepsTheInvariant : Prop :=
  ∀ (s t : State) (op : HostOp) (r : Reply), SafeState s → hostStep op s = .next (t, r) → SafeState t

/-- Every state reached from a constructed core by host operations, steps, runs and resets among them, is safe
(10_state.md sections 2 and 5). -/
def Obligations.ReachableStatesAreSafe : Prop :=
  ∀ (cfg : Config) (ops : List HostOp) (t : State) (replies : List Reply),
    hostSession ops (State.construct cfg) = .next (t, replies) → SafeState t
end

