-- ==== Sys2Proof/Laws/State.lean ====
section
/-!
SUPPORT. One lemma per field per update of State, and per read of memory, so that no proof unfolds an update.
-/

namespace Sys2Proof.Machine

open Sys2Proof

/-! ## State.setMem -/

@[simp] theorem State.setMem_cfg (m : Memory) (s : State) : (s.setMem m).cfg = s.cfg := rfl
@[simp] theorem State.setMem_ac (m : Memory) (s : State) : (s.setMem m).ac = s.ac := rfl
@[simp] theorem State.setMem_pc (m : Memory) (s : State) : (s.setMem m).pc = s.pc := rfl
@[simp] theorem State.setMem_ir (m : Memory) (s : State) : (s.setMem m).ir = s.ir := rfl
@[simp] theorem State.setMem_mar (m : Memory) (s : State) : (s.setMem m).mar = s.mar := rfl
@[simp] theorem State.setMem_mdr (m : Memory) (s : State) : (s.setMem m).mdr = s.mdr := rfl
@[simp] theorem State.setMem_halted (m : Memory) (s : State) : (s.setMem m).halted = s.halted := rfl
@[simp] theorem State.setMem_log (m : Memory) (s : State) : (s.setMem m).log = s.log := rfl
@[simp] theorem State.setMem_mem (m : Memory) (s : State) : (s.setMem m).mem = m := rfl
@[simp] theorem State.setMem_refused (m : Memory) (s : State) : (s.setMem m).refused = s.refused := rfl
@[simp] theorem State.setMem_draws (m : Memory) (s : State) : (s.setMem m).draws = s.draws := rfl

/-! ## State.setAc -/

@[simp] theorem State.setAc_cfg (v : Value) (s : State) : (s.setAc v).cfg = s.cfg := rfl
@[simp] theorem State.setAc_ac (v : Value) (s : State) : (s.setAc v).ac = v := rfl
@[simp] theorem State.setAc_pc (v : Value) (s : State) : (s.setAc v).pc = s.pc := rfl
@[simp] theorem State.setAc_ir (v : Value) (s : State) : (s.setAc v).ir = s.ir := rfl
@[simp] theorem State.setAc_mar (v : Value) (s : State) : (s.setAc v).mar = s.mar := rfl
@[simp] theorem State.setAc_mdr (v : Value) (s : State) : (s.setAc v).mdr = s.mdr := rfl
@[simp] theorem State.setAc_halted (v : Value) (s : State) : (s.setAc v).halted = s.halted := rfl
@[simp] theorem State.setAc_log (v : Value) (s : State) : (s.setAc v).log = s.log := rfl
@[simp] theorem State.setAc_mem (v : Value) (s : State) : (s.setAc v).mem = s.mem := rfl
@[simp] theorem State.setAc_refused (v : Value) (s : State) : (s.setAc v).refused = s.refused := rfl
@[simp] theorem State.setAc_draws (v : Value) (s : State) : (s.setAc v).draws = s.draws := rfl
@[simp] theorem memRead_setAc (v : Value) (a : Int) (s : State) : memRead a (s.setAc v) = memRead a s := rfl
@[simp] theorem fetchText_setAc (v : Value) (a : Int) (s : State) : fetchText a (s.setAc v) = fetchText a s := rfl
@[simp] theorem tagRead_setAc (v : Value) (a : Int) (s : State) : tagRead a (s.setAc v) = tagRead a s := rfl

/-! ## State.emit -/

@[simp] theorem State.emit_cfg (e : Event) (s : State) : (s.emit e).cfg = s.cfg := rfl
@[simp] theorem State.emit_ac (e : Event) (s : State) : (s.emit e).ac = s.ac := rfl
@[simp] theorem State.emit_pc (e : Event) (s : State) : (s.emit e).pc = s.pc := rfl
@[simp] theorem State.emit_ir (e : Event) (s : State) : (s.emit e).ir = s.ir := rfl
@[simp] theorem State.emit_mar (e : Event) (s : State) : (s.emit e).mar = s.mar := rfl
@[simp] theorem State.emit_mdr (e : Event) (s : State) : (s.emit e).mdr = s.mdr := rfl
@[simp] theorem State.emit_halted (e : Event) (s : State) : (s.emit e).halted = s.halted := rfl
@[simp] theorem State.emit_log (e : Event) (s : State) : (s.emit e).log = s.log ++ [e] := rfl
@[simp] theorem State.emit_mem (e : Event) (s : State) : (s.emit e).mem = s.mem := rfl
@[simp] theorem State.emit_refused (e : Event) (s : State) : (s.emit e).refused = s.refused := rfl
@[simp] theorem State.emit_draws (e : Event) (s : State) : (s.emit e).draws = s.draws := rfl
@[simp] theorem memRead_emit (e : Event) (a : Int) (s : State) : memRead a (s.emit e) = memRead a s := rfl
@[simp] theorem fetchText_emit (e : Event) (a : Int) (s : State) : fetchText a (s.emit e) = fetchText a s := rfl
@[simp] theorem tagRead_emit (e : Event) (a : Int) (s : State) : tagRead a (s.emit e) = tagRead a s := rfl

/-! ## State.clearLog -/

@[simp] theorem State.clearLog_cfg (s : State) : (s.clearLog).cfg = s.cfg := rfl
@[simp] theorem State.clearLog_ac (s : State) : (s.clearLog).ac = s.ac := rfl
@[simp] theorem State.clearLog_pc (s : State) : (s.clearLog).pc = s.pc := rfl
@[simp] theorem State.clearLog_ir (s : State) : (s.clearLog).ir = s.ir := rfl
@[simp] theorem State.clearLog_mar (s : State) : (s.clearLog).mar = s.mar := rfl
@[simp] theorem State.clearLog_mdr (s : State) : (s.clearLog).mdr = s.mdr := rfl
@[simp] theorem State.clearLog_halted (s : State) : (s.clearLog).halted = s.halted := rfl
@[simp] theorem State.clearLog_log (s : State) : (s.clearLog).log = [] := rfl
@[simp] theorem State.clearLog_mem (s : State) : (s.clearLog).mem = s.mem := rfl
@[simp] theorem State.clearLog_refused (s : State) : (s.clearLog).refused = s.refused := rfl
@[simp] theorem State.clearLog_draws (s : State) : (s.clearLog).draws = s.draws := rfl
@[simp] theorem memRead_clearLog (a : Int) (s : State) : memRead a (s.clearLog) = memRead a s := rfl
@[simp] theorem fetchText_clearLog (a : Int) (s : State) : fetchText a (s.clearLog) = fetchText a s := rfl
@[simp] theorem tagRead_clearLog (a : Int) (s : State) : tagRead a (s.clearLog) = tagRead a s := rfl

/-! ## State.markRefused -/

@[simp] theorem State.markRefused_cfg (r : RefusalReason) (s : State) : (s.markRefused r).cfg = s.cfg := rfl
@[simp] theorem State.markRefused_ac (r : RefusalReason) (s : State) : (s.markRefused r).ac = s.ac := rfl
@[simp] theorem State.markRefused_pc (r : RefusalReason) (s : State) : (s.markRefused r).pc = s.pc := rfl
@[simp] theorem State.markRefused_ir (r : RefusalReason) (s : State) : (s.markRefused r).ir = s.ir := rfl
@[simp] theorem State.markRefused_mar (r : RefusalReason) (s : State) : (s.markRefused r).mar = s.mar := rfl
@[simp] theorem State.markRefused_mdr (r : RefusalReason) (s : State) : (s.markRefused r).mdr = s.mdr := rfl
@[simp] theorem State.markRefused_halted (r : RefusalReason) (s : State) : (s.markRefused r).halted = s.halted := rfl
@[simp] theorem State.markRefused_log (r : RefusalReason) (s : State) : (s.markRefused r).log = s.log := rfl
@[simp] theorem State.markRefused_mem (r : RefusalReason) (s : State) : (s.markRefused r).mem = s.mem := rfl
@[simp] theorem State.markRefused_refused (r : RefusalReason) (s : State) : (s.markRefused r).refused = some r := rfl
@[simp] theorem State.markRefused_draws (r : RefusalReason) (s : State) : (s.markRefused r).draws = s.draws := rfl
@[simp] theorem memRead_markRefused (r : RefusalReason) (a : Int) (s : State) : memRead a (s.markRefused r) = memRead a s := rfl
@[simp] theorem fetchText_markRefused (r : RefusalReason) (a : Int) (s : State) : fetchText a (s.markRefused r) = fetchText a s := rfl
@[simp] theorem tagRead_markRefused (r : RefusalReason) (a : Int) (s : State) : tagRead a (s.markRefused r) = tagRead a s := rfl

/-! ## State.countDraw -/

@[simp] theorem State.countDraw_cfg (s : State) : (s.countDraw).cfg = s.cfg := rfl
@[simp] theorem State.countDraw_ac (s : State) : (s.countDraw).ac = s.ac := rfl
@[simp] theorem State.countDraw_pc (s : State) : (s.countDraw).pc = s.pc := rfl
@[simp] theorem State.countDraw_ir (s : State) : (s.countDraw).ir = s.ir := rfl
@[simp] theorem State.countDraw_mar (s : State) : (s.countDraw).mar = s.mar := rfl
@[simp] theorem State.countDraw_mdr (s : State) : (s.countDraw).mdr = s.mdr := rfl
@[simp] theorem State.countDraw_halted (s : State) : (s.countDraw).halted = s.halted := rfl
@[simp] theorem State.countDraw_log (s : State) : (s.countDraw).log = s.log := rfl
@[simp] theorem State.countDraw_mem (s : State) : (s.countDraw).mem = s.mem := rfl
@[simp] theorem State.countDraw_refused (s : State) : (s.countDraw).refused = s.refused := rfl
@[simp] theorem State.countDraw_draws (s : State) : (s.countDraw).draws = s.draws + 1 := rfl
@[simp] theorem memRead_countDraw (a : Int) (s : State) : memRead a (s.countDraw) = memRead a s := rfl
@[simp] theorem fetchText_countDraw (a : Int) (s : State) : fetchText a (s.countDraw) = fetchText a s := rfl
@[simp] theorem tagRead_countDraw (a : Int) (s : State) : tagRead a (s.countDraw) = tagRead a s := rfl

/-! ## State.setHalted -/

@[simp] theorem State.setHalted_cfg (s : State) : (s.setHalted).cfg = s.cfg := rfl
@[simp] theorem State.setHalted_ac (s : State) : (s.setHalted).ac = s.ac := rfl
@[simp] theorem State.setHalted_pc (s : State) : (s.setHalted).pc = s.pc := rfl
@[simp] theorem State.setHalted_ir (s : State) : (s.setHalted).ir = s.ir := rfl
@[simp] theorem State.setHalted_mar (s : State) : (s.setHalted).mar = s.mar := rfl
@[simp] theorem State.setHalted_mdr (s : State) : (s.setHalted).mdr = s.mdr := rfl
@[simp] theorem State.setHalted_halted (s : State) : (s.setHalted).halted = true := rfl
@[simp] theorem State.setHalted_log (s : State) : (s.setHalted).log = s.log := rfl
@[simp] theorem State.setHalted_mem (s : State) : (s.setHalted).mem = s.mem := rfl
@[simp] theorem State.setHalted_refused (s : State) : (s.setHalted).refused = s.refused := rfl
@[simp] theorem State.setHalted_draws (s : State) : (s.setHalted).draws = s.draws := rfl
@[simp] theorem memRead_setHalted (a : Int) (s : State) : memRead a (s.setHalted) = memRead a s := rfl
@[simp] theorem fetchText_setHalted (a : Int) (s : State) : fetchText a (s.setHalted) = fetchText a s := rfl
@[simp] theorem tagRead_setHalted (a : Int) (s : State) : tagRead a (s.setHalted) = tagRead a s := rfl

/-! ## fetch -/

@[simp] theorem fetch_cfg (s : State) : (fetch s).cfg = s.cfg := rfl
@[simp] theorem fetch_ac (s : State) : (fetch s).ac = s.ac := rfl
@[simp] theorem fetch_pc (s : State) : (fetch s).pc = s.pc + 1 := rfl
@[simp] theorem fetch_ir (s : State) : (fetch s).ir = fetchText s.pc s := rfl
@[simp] theorem fetch_mar (s : State) : (fetch s).mar = s.pc := rfl
@[simp] theorem fetch_mdr (s : State) : (fetch s).mdr = fetchText s.pc s := rfl
@[simp] theorem fetch_halted (s : State) : (fetch s).halted = s.halted := rfl
@[simp] theorem fetch_log (s : State) : (fetch s).log = s.log := rfl
@[simp] theorem fetch_mem (s : State) : (fetch s).mem = s.mem := rfl
@[simp] theorem fetch_refused (s : State) : (fetch s).refused = s.refused := rfl
@[simp] theorem fetch_draws (s : State) : (fetch s).draws = s.draws := rfl
@[simp] theorem memRead_fetch (a : Int) (s : State) : memRead a (fetch s) = memRead a s := rfl
@[simp] theorem fetchText_fetch (a : Int) (s : State) : fetchText a (fetch s) = fetchText a s := rfl
@[simp] theorem tagRead_fetch (a : Int) (s : State) : tagRead a (fetch s) = tagRead a s := rfl

/-! ## clearMemory -/

@[simp] theorem clearMemory_cfg (s : State) : (clearMemory s).cfg = s.cfg := rfl
@[simp] theorem clearMemory_ac (s : State) : (clearMemory s).ac = s.ac := rfl
@[simp] theorem clearMemory_pc (s : State) : (clearMemory s).pc = s.pc := rfl
@[simp] theorem clearMemory_ir (s : State) : (clearMemory s).ir = s.ir := rfl
@[simp] theorem clearMemory_mar (s : State) : (clearMemory s).mar = s.mar := rfl
@[simp] theorem clearMemory_mdr (s : State) : (clearMemory s).mdr = s.mdr := rfl
@[simp] theorem clearMemory_halted (s : State) : (clearMemory s).halted = s.halted := rfl
@[simp] theorem clearMemory_log (s : State) : (clearMemory s).log = s.log := rfl
@[simp] theorem clearMemory_mem (s : State) : (clearMemory s).mem = Memory.blank := rfl
@[simp] theorem clearMemory_refused (s : State) : (clearMemory s).refused = s.refused := rfl
@[simp] theorem clearMemory_draws (s : State) : (clearMemory s).draws = s.draws := rfl

/-! ## hostReset -/

@[simp] theorem hostReset_cfg (s : State) : (hostReset s).cfg = s.cfg := rfl
@[simp] theorem hostReset_ac (s : State) : (hostReset s).ac = 0 := rfl
@[simp] theorem hostReset_pc (s : State) : (hostReset s).pc = 0 := rfl
@[simp] theorem hostReset_ir (s : State) : (hostReset s).ir = [] := rfl
@[simp] theorem hostReset_mar (s : State) : (hostReset s).mar = 0 := rfl
@[simp] theorem hostReset_mdr (s : State) : (hostReset s).mdr = [] := rfl
@[simp] theorem hostReset_halted (s : State) : (hostReset s).halted = false := rfl
@[simp] theorem hostReset_log (s : State) : (hostReset s).log = [] := rfl
@[simp] theorem hostReset_mem (s : State) : (hostReset s).mem = Memory.blank := rfl
@[simp] theorem hostReset_refused (s : State) : (hostReset s).refused = s.refused := rfl
@[simp] theorem hostReset_draws (s : State) : (hostReset s).draws = s.draws := rfl

/-! ## memWrite -/

@[simp] theorem memWrite_cfg (a : Int) (v : Value) (s : State) : (memWrite a v s).cfg = s.cfg := by
  unfold memWrite; split <;> rfl
@[simp] theorem memWrite_ac (a : Int) (v : Value) (s : State) : (memWrite a v s).ac = s.ac := by
  unfold memWrite; split <;> rfl
@[simp] theorem memWrite_pc (a : Int) (v : Value) (s : State) : (memWrite a v s).pc = s.pc := by
  unfold memWrite; split <;> rfl
@[simp] theorem memWrite_ir (a : Int) (v : Value) (s : State) : (memWrite a v s).ir = s.ir := by
  unfold memWrite; split <;> rfl
@[simp] theorem memWrite_mar (a : Int) (v : Value) (s : State) : (memWrite a v s).mar = s.mar := by
  unfold memWrite; split <;> rfl
@[simp] theorem memWrite_mdr (a : Int) (v : Value) (s : State) : (memWrite a v s).mdr = s.mdr := by
  unfold memWrite; split <;> rfl
@[simp] theorem memWrite_halted (a : Int) (v : Value) (s : State) : (memWrite a v s).halted = s.halted := by
  unfold memWrite; split <;> rfl
@[simp] theorem memWrite_log (a : Int) (v : Value) (s : State) : (memWrite a v s).log = s.log := by
  unfold memWrite; split <;> rfl
@[simp] theorem memWrite_refused (a : Int) (v : Value) (s : State) : (memWrite a v s).refused = s.refused := by
  unfold memWrite; split <;> rfl
@[simp] theorem memWrite_draws (a : Int) (v : Value) (s : State) : (memWrite a v s).draws = s.draws := by
  unfold memWrite; split <;> rfl

/-! ## setInstruction -/

@[simp] theorem setInstruction_cfg (a : Int) (txt : Text) (s : State) : (setInstruction a txt s).cfg = s.cfg := by
  unfold setInstruction; split <;> rfl
@[simp] theorem setInstruction_ac (a : Int) (txt : Text) (s : State) : (setInstruction a txt s).ac = s.ac := by
  unfold setInstruction; split <;> rfl
@[simp] theorem setInstruction_pc (a : Int) (txt : Text) (s : State) : (setInstruction a txt s).pc = s.pc := by
  unfold setInstruction; split <;> rfl
@[simp] theorem setInstruction_ir (a : Int) (txt : Text) (s : State) : (setInstruction a txt s).ir = s.ir := by
  unfold setInstruction; split <;> rfl
@[simp] theorem setInstruction_mar (a : Int) (txt : Text) (s : State) : (setInstruction a txt s).mar = s.mar := by
  unfold setInstruction; split <;> rfl
@[simp] theorem setInstruction_mdr (a : Int) (txt : Text) (s : State) : (setInstruction a txt s).mdr = s.mdr := by
  unfold setInstruction; split <;> rfl
@[simp] theorem setInstruction_halted (a : Int) (txt : Text) (s : State) : (setInstruction a txt s).halted = s.halted := by
  unfold setInstruction; split <;> rfl
@[simp] theorem setInstruction_log (a : Int) (txt : Text) (s : State) : (setInstruction a txt s).log = s.log := by
  unfold setInstruction; split <;> rfl
@[simp] theorem setInstruction_refused (a : Int) (txt : Text) (s : State) : (setInstruction a txt s).refused = s.refused := by
  unfold setInstruction; split <;> rfl
@[simp] theorem setInstruction_draws (a : Int) (txt : Text) (s : State) : (setInstruction a txt s).draws = s.draws := by
  unfold setInstruction; split <;> rfl

end Sys2Proof.Machine
end

