-- ==== Sys2Proof/Laws/Memory.lean ====
section
/-!
SUPPORT. The laws of memory: a read after a write, the canonical form kept by every memory operation.
-/

namespace Sys2Proof.Machine

open Sys2Proof

variable {α : Type}

/-! ## One view -/

theorem viewRead_viewErase_other (d : α) (m : List (Nat × α)) {a b : Nat} (h : b ≠ a) :
    viewRead d (viewErase m a) b = viewRead d m b := by
  induction m with
  | nil => rfl
  | cons e m ih =>
    simp only [viewErase] at ih
    by_cases he : e.1 = a
    · simp [viewErase, viewRead, he, ih, h.symm]
    · simp [viewErase, viewRead, he, ih]

theorem viewRead_viewErase_same (d : α) (m : List (Nat × α)) (a : Nat) : viewRead d (viewErase m a) a = d := by
  induction m with
  | nil => rfl
  | cons e m ih =>
    simp only [viewErase] at ih
    by_cases he : e.1 = a <;> simp [viewErase, viewRead, he, ih]

theorem viewErase_ne {m : List (Nat × α)} {a : Nat} : ∀ e ∈ viewErase m a, e.1 ≠ a := by
  intro e he
  simpa using (List.mem_filter.mp he).2

theorem viewRead_viewInsert_same (d : α) (m : List (Nat × α)) (a : Nat) (v : α) (h : ∀ e ∈ m, e.1 ≠ a) :
    viewRead d (viewInsert m a v) a = v := by
  induction m with
  | nil => simp [viewInsert, viewRead]
  | cons e m ih =>
    have he : e.1 ≠ a := h e (by simp)
    unfold viewInsert
    split
    · simp [viewRead]
    · simp [viewRead, he, ih fun e' h' => h e' (by simp [h'])]

theorem viewRead_viewInsert_other (d : α) (m : List (Nat × α)) {a b : Nat} (v : α) (h : b ≠ a) :
    viewRead d (viewInsert m a v) b = viewRead d m b := by
  induction m with
  | nil => simp [viewInsert, viewRead, h.symm]
  | cons e m ih =>
    unfold viewInsert
    split
    · simp [viewRead, h.symm]
    · simp [viewRead, ih]

theorem mem_viewInsert {m : List (Nat × α)} {a : Nat} {v : α} {e : Nat × α} :
    e ∈ viewInsert m a v → e = (a, v) ∨ e ∈ m := by
  induction m with
  | nil => simp [viewInsert]
  | cons e' m ih =>
    unfold viewInsert
    split
    · simp
    · simp only [List.mem_cons]
      rintro (h | h)
      · exact .inr (.inl h)
      · exact (ih h).imp id .inr

variable [DecidableEq α]

/-- A read after a write to the same cell gives the value written, in every state of the view. -/
theorem viewRead_viewWrite_same (d : α) (m : List (Nat × α)) (a : Nat) (v : α) :
    viewRead d (viewWrite d m a v) a = v := by
  unfold viewWrite
  split
  · next h => rw [viewRead_viewErase_same, h]
  · exact viewRead_viewInsert_same d _ a v viewErase_ne

/-- A write leaves every other cell of the view alone. -/
theorem viewRead_viewWrite_other (d : α) (m : List (Nat × α)) {a b : Nat} (v : α) (h : b ≠ a) :
    viewRead d (viewWrite d m a v) b = viewRead d m b := by
  unfold viewWrite
  split
  · exact viewRead_viewErase_other d m h
  · rw [viewRead_viewInsert_other d _ v h, viewRead_viewErase_other d m h]

/-! ## The canonical form -/

theorem viewWf_cons {d : α} {n : Nat} {e : Nat × α} {m : List (Nat × α)} :
    viewWf d n (e :: m) = true ↔ (∀ e' ∈ m, e.1 < e'.1) ∧ e.1 < n ∧ e.2 ≠ d ∧ viewWf d n m = true := by
  simp [viewWf, and_assoc]

theorem viewWf_viewErase {d : α} {n : Nat} {m : List (Nat × α)} (a : Nat) (h : viewWf d n m = true) :
    viewWf d n (viewErase m a) = true := by
  induction m with
  | nil => rfl
  | cons e m ih =>
    obtain ⟨hlt, hn, hv, hm⟩ := viewWf_cons.mp h
    by_cases he : e.1 = a
    · simpa [viewErase, he] using ih hm
    · have hkeep : viewErase (e :: m) a = e :: viewErase m a := by simp [viewErase, he]
      rw [hkeep]
      exact viewWf_cons.mpr ⟨fun e' h' => hlt e' (List.mem_filter.mp h').1, hn, hv, ih hm⟩

theorem viewWf_viewInsert {d : α} {n : Nat} {m : List (Nat × α)} {a : Nat} {v : α} (ha : a < n) (hv : v ≠ d)
    (hne : ∀ e ∈ m, e.1 ≠ a) (h : viewWf d n m = true) : viewWf d n (viewInsert m a v) = true := by
  induction m with
  | nil => exact viewWf_cons.mpr ⟨by simp, ha, hv, rfl⟩
  | cons e m ih =>
    obtain ⟨hlt, hn, hd, hm⟩ := viewWf_cons.mp h
    have hea : e.1 ≠ a := hne e (by simp)
    unfold viewInsert
    split
    · next hae =>
      refine viewWf_cons.mpr ⟨fun e' h' => ?_, ha, hv, h⟩
      obtain rfl | h' := List.mem_cons.mp h'
      · exact hae
      · exact Nat.lt_trans hae (hlt e' h')
    · next hae =>
      refine viewWf_cons.mpr ⟨fun e' h' => ?_, hn, hd, ih (fun e' h' => hne e' (by simp [h'])) hm⟩
      obtain rfl | h' := mem_viewInsert h'
      · simp only at hae ⊢; omega
      · exact hlt e' h'

/-- Writing a cell keeps a view's canonical form. -/
theorem viewWf_viewWrite {d : α} {n : Nat} {m : List (Nat × α)} {a : Nat} (v : α) (ha : a < n)
    (h : viewWf d n m = true) : viewWf d n (viewWrite d m a v) = true := by
  unfold viewWrite
  split
  · exact viewWf_viewErase a h
  · next hv => exact viewWf_viewInsert ha hv viewErase_ne (viewWf_viewErase a h)

/-! ## Memory operations keep the canonical form -/

theorem Memory.wf_iff {n : Nat} {m : Memory} : m.wf n = true ↔
    viewWf 0 n m.data = true ∧ viewWf [] n m.text = true ∧ viewWf false n m.tag = true := by
  simp [Memory.wf, and_assoc]

theorem InRange.toNat_lt {s : State} {a : Int} (h : InRange s a) : a.toNat < s.cfg.capacity := by
  have := h.1; have := h.2; omega

theorem memWrite_keeps_wf (a : Int) (v : Value) {s : State} (h : s.mem.wf s.cfg.capacity = true) :
    (memWrite a v s).mem.wf (memWrite a v s).cfg.capacity = true := by
  unfold memWrite
  split
  · next hr =>
    obtain ⟨hd, ht, hg⟩ := Memory.wf_iff.mp h
    exact Memory.wf_iff.mpr ⟨viewWf_viewWrite v hr.toNat_lt hd, ht, hg⟩
  · exact h

theorem setInstruction_keeps_wf (a : Int) (txt : Text) {s : State} (h : s.mem.wf s.cfg.capacity = true) :
    (setInstruction a txt s).mem.wf (setInstruction a txt s).cfg.capacity = true := by
  unfold setInstruction
  split
  · next hr =>
    obtain ⟨hd, ht, hg⟩ := Memory.wf_iff.mp h
    exact Memory.wf_iff.mpr ⟨hd, viewWf_viewWrite txt hr.toNat_lt ht, viewWf_viewWrite true hr.toNat_lt hg⟩
  · exact h

theorem clearMemory_has_wf (s : State) : (clearMemory s).mem.wf (clearMemory s).cfg.capacity = true := rfl

theorem reset_has_wf : State.reset.mem.wf State.reset.cfg.capacity = true := rfl

/-! ## The access primitives -/

theorem memRead_of_inRange {a : Int} {s : State} (h : InRange s a) : memRead a s = viewRead 0 s.mem.data a.toNat :=
  if_pos h

theorem memRead_of_not_inRange {a : Int} {s : State} (h : ¬InRange s a) : memRead a s = 0 := if_neg h

theorem fetchText_of_inRange {a : Int} {s : State} (h : InRange s a) :
    fetchText a s = viewRead [] s.mem.text a.toNat := if_pos h

theorem fetchText_of_not_inRange {a : Int} {s : State} (h : ¬InRange s a) : fetchText a s = [] := if_neg h

theorem tagRead_of_inRange {a : Int} {s : State} (h : InRange s a) :
    tagRead a s = viewRead false s.mem.tag a.toNat := if_pos h

theorem tagRead_of_not_inRange {a : Int} {s : State} (h : ¬InRange s a) : tagRead a s = false := if_neg h

theorem memWrite_of_not_inRange {a : Int} {s : State} (v : Value) (h : ¬InRange s a) : memWrite a v s = s := if_neg h

theorem setInstruction_of_not_inRange {a : Int} {s : State} (txt : Text) (h : ¬InRange s a) :
    setInstruction a txt s = s := if_neg h

/-- The three reads depend on the parameters and the memory only. -/
theorem reads_of_same_memory {s t : State} (hc : t.cfg = s.cfg) (hm : t.mem = s.mem) (a : Int) :
    memRead a t = memRead a s ∧ fetchText a t = fetchText a s ∧ tagRead a t = tagRead a s := by
  simp [memRead, fetchText, tagRead, InRange, hm, hc]

/-- Every cell of an all-default memory reads as its defaults. -/
theorem reads_of_blank_memory {s : State} (h : s.mem = Memory.blank) (a : Int) :
    memRead a s = 0 ∧ fetchText a s = [] ∧ tagRead a s = false := by
  simp [memRead, fetchText, tagRead, h, Memory.blank, viewRead]

theorem toNat_ne {s : State} {a b : Int} (ha : InRange s a) (hb : InRange s b) (h : b ≠ a) : b.toNat ≠ a.toNat := by
  have := ha.1; have := hb.1; omega

theorem memRead_memWrite_same {a : Int} {s : State} (v : Value) (h : InRange s a) :
    memRead a (memWrite a v s) = v := by
  have h' : InRange (memWrite a v s) a := by simpa [InRange] using h
  rw [memRead_of_inRange h', memWrite, if_pos h]
  exact viewRead_viewWrite_same ..

theorem memRead_memWrite_other {a b : Int} {s : State} (v : Value) (h : b ≠ a) :
    memRead b (memWrite a v s) = memRead b s := by
  by_cases ha : InRange s a
  · by_cases hb : InRange s b
    · have hb' : InRange (memWrite a v s) b := by simpa [InRange] using hb
      rw [memRead_of_inRange hb', memRead_of_inRange hb, memWrite, if_pos ha]
      exact viewRead_viewWrite_other _ _ _ (toNat_ne ha hb h)
    · have hb' : ¬InRange (memWrite a v s) b := by simpa [InRange] using hb
      rw [memRead_of_not_inRange hb', memRead_of_not_inRange hb]
  · rw [memWrite_of_not_inRange v ha]

/-- The memory after a write, whatever the other registers hold. -/
theorem memWrite_mem (a : Int) (v : Value) (s : State) : (memWrite a v s).mem =
    if InRange s a then { s.mem with data := viewWrite 0 s.mem.data a.toNat v } else s.mem := by
  unfold memWrite; split <;> rfl

@[simp] theorem memWrite_text (a : Int) (v : Value) (s : State) : (memWrite a v s).mem.text = s.mem.text := by
  unfold memWrite; split <;> rfl

@[simp] theorem memWrite_tag (a : Int) (v : Value) (s : State) : (memWrite a v s).mem.tag = s.mem.tag := by
  unfold memWrite; split <;> rfl

@[simp] theorem setInstruction_data (a : Int) (txt : Text) (s : State) :
    (setInstruction a txt s).mem.data = s.mem.data := by
  unfold setInstruction; split <;> rfl

@[simp] theorem fetchText_memWrite (b a : Int) (v : Value) (s : State) :
    fetchText b (memWrite a v s) = fetchText b s := by
  simp [fetchText, InRange]

@[simp] theorem tagRead_memWrite (b a : Int) (v : Value) (s : State) : tagRead b (memWrite a v s) = tagRead b s := by
  simp [tagRead, InRange]

@[simp] theorem memRead_setInstruction (b a : Int) (txt : Text) (s : State) :
    memRead b (setInstruction a txt s) = memRead b s := by
  simp [memRead, InRange]

theorem fetchText_setInstruction_same {a : Int} {s : State} (txt : Text) (h : InRange s a) :
    fetchText a (setInstruction a txt s) = txt := by
  have h' : InRange (setInstruction a txt s) a := by simpa [InRange] using h
  rw [fetchText_of_inRange h', setInstruction, if_pos h]
  exact viewRead_viewWrite_same [] s.mem.text a.toNat txt

theorem tagRead_setInstruction_same {a : Int} {s : State} (txt : Text) (h : InRange s a) :
    tagRead a (setInstruction a txt s) = true := by
  have h' : InRange (setInstruction a txt s) a := by simpa [InRange] using h
  rw [tagRead_of_inRange h', setInstruction, if_pos h]
  exact viewRead_viewWrite_same false s.mem.tag a.toNat true

theorem fetchText_setInstruction_other {a b : Int} {s : State} (txt : Text) (h : b ≠ a) :
    fetchText b (setInstruction a txt s) = fetchText b s := by
  by_cases ha : InRange s a
  · by_cases hb : InRange s b
    · have hb' : InRange (setInstruction a txt s) b := by simpa [InRange] using hb
      rw [fetchText_of_inRange hb', fetchText_of_inRange hb, setInstruction, if_pos ha]
      exact viewRead_viewWrite_other [] s.mem.text txt (toNat_ne ha hb h)
    · have hb' : ¬InRange (setInstruction a txt s) b := by simpa [InRange] using hb
      rw [fetchText_of_not_inRange hb', fetchText_of_not_inRange hb]
  · rw [setInstruction_of_not_inRange txt ha]

theorem tagRead_setInstruction_other {a b : Int} {s : State} (txt : Text) (h : b ≠ a) :
    tagRead b (setInstruction a txt s) = tagRead b s := by
  by_cases ha : InRange s a
  · by_cases hb : InRange s b
    · have hb' : InRange (setInstruction a txt s) b := by simpa [InRange] using hb
      rw [tagRead_of_inRange hb', tagRead_of_inRange hb, setInstruction, if_pos ha]
      exact viewRead_viewWrite_other false s.mem.tag true (toNat_ne ha hb h)
    · have hb' : ¬InRange (setInstruction a txt s) b := by simpa [InRange] using hb
      rw [tagRead_of_not_inRange hb', tagRead_of_not_inRange hb]
  · rw [setInstruction_of_not_inRange txt ha]

end Sys2Proof.Machine
end

