-- ==== Sys2Proof/Laws/Cycle.lean ====
section
/-!
SUPPORT. What each meaning, decode-execute and a cycle can do, each said once.
-/

namespace Sys2Proof.Machine

open Sys2Proof

/-! ## The meanings -/

/-- The operand forms are direct: the operand is the address (40_data_transfer.md R73). -/
theorem operandRead_eq (a : Int) (s : State) : operandRead a s = memRead a s := rfl

theorem operandWrite_eq (a : Int) (v : Value) (s : State) : operandWrite a v s = memWrite a v s := rfl

/-- STORE to a cell, in closed form. -/
theorem exec_store_inRange {a : Int} {s : State} (h : InRange s a) : exec (.store a) s = .next { s with
    mem := { s.mem with data := viewWrite 0 s.mem.data a.toNat s.ac }
    log := s.log ++ [.store (s.pc - 1) s.ir a (memRead a s) s.ac] } := by
  have hx : exec (.store a) s = execStore a s := rfl
  have ht : operandWrite a s.ac s = s.setMem { s.mem with data := viewWrite 0 s.mem.data a.toNat s.ac } := if_pos h
  have hr : memRead a (operandWrite a s.ac s) = s.ac := memRead_memWrite_same _ h
  simp only [hx, execStore, effectiveAddress, if_pos h, hr]
  rw [ht]; rfl

/-- STORE out of range, in closed form. -/
theorem exec_store_outOfRange {a : Int} {s : State} (h : ¬InRange s a) : exec (.store a) s = .next { s with
    draws := s.draws + 1
    log := s.log ++ [.store (s.pc - 1) s.ir a 0 (ignoredStoreAfter s)] } := by
  have hx : exec (.store a) s = execStore a s := rfl
  have ht : operandWrite a s.ac s = s := if_neg h
  simp only [hx, execStore, effectiveAddress, if_neg h, ht, memRead_of_not_inRange h]
  rfl

/-- All that an instruction's execution can do: it answers a next state, which differs in AC (LOAD, ADD, SUB), in
the data view, the draws (STORE) or `halted` (HLT), and in one event with the fetch address and IR. -/
theorem exec_cases (i : Instr) (s : State) : ∃ t e, exec i s = .next t ∧ t.log = s.log ++ [e] ∧
    e.pc? = some (fetchAddress s) ∧ e.text? = some s.ir ∧ t.cfg = s.cfg ∧ t.pc = s.pc ∧ t.ir = s.ir ∧
    t.mar = s.mar ∧ t.mdr = s.mdr ∧ t.refused = s.refused ∧ t.mem.text = s.mem.text ∧ t.mem.tag = s.mem.tag ∧
    ((∃ a, i = .store a ∧ t.mem = (memWrite a s.ac s).mem ∧ t.ac = s.ac ∧ t.halted = s.halted) ∨
      (i = .hlt ∧ t.mem = s.mem ∧ t.draws = s.draws ∧ t.ac = s.ac ∧ t.halted = true) ∨
      (∃ a, (i = .load a ∧ t.ac = memRead a s ∨ i = .add a ∧ t.ac = s.ac + memRead a s ∨
        i = .sub a ∧ t.ac = s.ac - memRead a s) ∧ t.mem = s.mem ∧ t.draws = s.draws ∧ t.halted = s.halted)) := by
  cases i with
  | load a => exact ⟨_, _, rfl, rfl, rfl, rfl, rfl, rfl, rfl, rfl, rfl, rfl, rfl, rfl,
      .inr (.inr ⟨a, .inl ⟨rfl, rfl⟩, rfl, rfl, rfl⟩)⟩
  | add a => exact ⟨_, _, rfl, rfl, rfl, rfl, rfl, rfl, rfl, rfl, rfl, rfl, rfl, rfl,
      .inr (.inr ⟨a, .inr (.inl ⟨rfl, rfl⟩), rfl, rfl, rfl⟩)⟩
  | sub a => exact ⟨_, _, rfl, rfl, rfl, rfl, rfl, rfl, rfl, rfl, rfl, rfl, rfl, rfl,
      .inr (.inr ⟨a, .inr (.inr ⟨rfl, rfl⟩), rfl, rfl, rfl⟩)⟩
  | hlt => exact ⟨_, _, rfl, rfl, rfl, rfl, rfl, rfl, rfl, rfl, rfl, rfl, rfl, rfl,
      .inr (.inl ⟨rfl, rfl, rfl, rfl, rfl⟩)⟩
  | store a =>
    by_cases h : InRange s a
    · exact ⟨_, _, exec_store_inRange h, rfl, rfl, rfl, rfl, rfl, rfl, rfl, rfl, rfl, rfl, rfl,
        .inl ⟨a, rfl, by simp [memWrite_mem, h], rfl, rfl⟩⟩
    · exact ⟨_, _, exec_store_outOfRange h, rfl, rfl, rfl, rfl, rfl, rfl, rfl, rfl, rfl, rfl, rfl,
        .inl ⟨a, rfl, by simp [memWrite_mem, h], rfl, rfl⟩⟩

/-! ## Anomalies -/

@[simp] theorem anomalyEvent_pc (k : Anomaly) (p : Nat) (txt : Text) : (anomalyEvent k p txt).pc? = some p := by
  cases k <;> rfl

@[simp] theorem anomalyEvent_text (k : Anomaly) (p : Nat) (txt : Text) :
    (anomalyEvent k p txt).text? = some txt := by
  cases k <;> rfl

theorem recordAnomaly_eq (k : Anomaly) (s : State) :
    recordAnomaly k s = { s with log := s.log ++ [anomalyEvent k (s.pc - 1) s.ir] } := rfl

/-! ## The cycle -/

theorem unlessRefused_none {α : Type} {s : State} (h : s.refused = none) (go : Host.Outcome α Fault Refusal) :
    unlessRefused s go = go := by
  simp [unlessRefused, h]

theorem unlessRefused_some {α : Type} {s : State} {r : RefusalReason} (h : s.refused = some r)
    (go : Host.Outcome α Fault Refusal) : unlessRefused s go = .refused (.instructionText r) := by
  simp [unlessRefused, h]

/-- `unlessRefused` answers a next value only from an unmarked state. -/
theorem unlessRefused_next {α : Type} {s : State} {go : Host.Outcome α Fault Refusal} {x : α}
    (h : unlessRefused s go = .next x) : s.refused = none ∧ go = .next x := by
  unfold unlessRefused at h
  split at h
  · cases h
  · exact ⟨‹_›, h⟩

theorem fetches_of_not_stopped {s : State} (hr : s.refused = none) (h : ¬Stopped s) : Fetches s := by
  simp only [not_or, Bool.not_eq_true, Nat.not_le] at h
  exact ⟨hr, h.1, h.2⟩

theorem Fetches.not_stopped {s : State} (h : Fetches s) : ¬Stopped s := by
  simp [Stopped, h.2.1, h.2.2]

theorem runCycle_of_stopped {s : State} (hr : s.refused = none) (h : Stopped s) :
    runCycle s = .next (s, false) := by
  rw [runCycle, unlessRefused_none hr, if_pos h]

theorem runCycle_of_fetches {s : State} (h : Fetches s) :
    runCycle s = finishCycle (decodeExecute (fetch s)) := by
  rw [runCycle, unlessRefused_none h.1, if_neg h.not_stopped]

theorem decodeExecute_fetch {s : State} (h : Fetches s) : decodeExecute (fetch s) =
    match decodedAt s.pc s with
    | .blank => .next (fetch s)
    | .instr i => exec i (fetch s)
    | .anomaly k => .next (recordAnomaly k (fetch s))
    | .refused r => .next ((fetch s).markRefused r) := by
  unfold decodeExecute decodedAt
  simp only [fetch_halted, fetch_cfg, fetch_ir, h.2.1]
  cases decode s.cfg.extraTokens (fetchText s.pc s) <;> rfl

theorem exec_runs (i : Instr) (s : State) : ∃ t, exec i s = .next t ∧ t.refused = s.refused := by
  obtain ⟨t, e, h⟩ := exec_cases i s
  exact ⟨t, h.1, h.2.2.2.2.2.2.2.2.2.1⟩

theorem runCycle_blank {s : State} (h : Fetches s) (hd : decodedAt s.pc s = .blank) :
    runCycle s = .next (fetch s, true) := by
  rw [runCycle_of_fetches h, decodeExecute_fetch h, hd]
  simp [finishCycle, unlessRefused, h.1, h.2.1]

theorem runCycle_anomaly {s : State} {k : Anomaly} (h : Fetches s) (hd : decodedAt s.pc s = .anomaly k) :
    runCycle s = .next (recordAnomaly k (fetch s), true) := by
  rw [runCycle_of_fetches h, decodeExecute_fetch h, hd]
  simp [finishCycle, unlessRefused, recordAnomaly, h.1, h.2.1]

theorem runCycle_refused {s : State} {r : RefusalReason} (h : Fetches s) (hd : decodedAt s.pc s = .refused r) :
    runCycle s = .refused (.instructionText r) := by
  rw [runCycle_of_fetches h, decodeExecute_fetch h, hd]
  simp [finishCycle, unlessRefused]

theorem runCycle_instr {s t : State} {i : Instr} (h : Fetches s) (hd : decodedAt s.pc s = .instr i)
    (he : exec i (fetch s) = .next t) : runCycle s = .next (t, !t.halted) := by
  obtain ⟨t', he', hr⟩ := exec_runs i (fetch s)
  obtain rfl : t' = t := by rw [he] at he'; injection he' with h'; exact h'.symm
  rw [runCycle_of_fetches h, decodeExecute_fetch h, hd]
  simp only [he, finishCycle]
  exact unlessRefused_none (by rw [hr]; exact h.1) _

/-- All that a cycle which answers a next state can do: stop without fetching, or fetch and then do nothing,
execute an instruction, or record an anomaly. -/
theorem runCycle_cases {s t : State} {b : Bool} (h : runCycle s = .next (t, b)) :
    s.refused = none ∧
    ((Stopped s ∧ t = s ∧ b = false) ∨
      (Fetches s ∧ b = !t.halted ∧
        ((decodedAt s.pc s = .blank ∧ t = fetch s) ∨
          (∃ i, decodedAt s.pc s = .instr i ∧ exec i (fetch s) = .next t) ∨
          (∃ k, decodedAt s.pc s = .anomaly k ∧ t = recordAnomaly k (fetch s))))) := by
  obtain ⟨hr, hgo⟩ := unlessRefused_next h
  refine ⟨hr, ?_⟩
  by_cases hs : Stopped s
  · rw [if_pos hs] at hgo
    injection hgo with hgo; injection hgo with h1 h2
    exact .inl ⟨hs, h1.symm, h2.symm⟩
  · have hf := fetches_of_not_stopped hr hs
    refine .inr ⟨hf, ?_⟩
    cases hd : decodedAt s.pc s with
    | blank =>
      rw [runCycle_blank hf hd] at h
      injection h with h; injection h with h1 h2
      subst h1 h2
      exact ⟨by simp [hf.2.1], .inl ⟨rfl, rfl⟩⟩
    | instr i =>
      obtain ⟨t', he, -⟩ := exec_runs i (fetch s)
      rw [runCycle_instr hf hd he] at h
      injection h with h; injection h with h1 h2
      subst h1 h2
      exact ⟨rfl, .inr (.inl ⟨i, rfl, he⟩)⟩
    | anomaly k =>
      rw [runCycle_anomaly hf hd] at h
      injection h with h; injection h with h1 h2
      subst h1 h2
      exact ⟨by simp [recordAnomaly, hf.2.1], .inr (.inr ⟨k, rfl, rfl⟩)⟩
    | refused r => rw [runCycle_refused hf hd] at h; cases h

theorem decodeExecute_next (s : State) : ∃ t, decodeExecute s = .next t := by
  unfold decodeExecute
  split
  · exact ⟨_, rfl⟩
  · split
    · exact ⟨_, rfl⟩
    · next i _ => exact (exec_runs i s).imp fun _ h => h.1
    · exact ⟨_, rfl⟩
    · exact ⟨_, rfl⟩

theorem step_next_iff {s t : State} : step s = .next t ↔ ∃ b, runCycle s = .next (t, b) := by
  unfold step
  cases h : runCycle s with
  | next r => obtain ⟨u, b⟩ := r; simp [mapNext]
  | fault e => simp [mapNext]
  | refused r => simp [mapNext]

/-- All that a step which answers a next state can do, with what the next state holds. -/
theorem step_cases {s t : State} (h : step s = .next t) : s.refused = none ∧
    ((Stopped s ∧ t = s) ∨
      (Fetches s ∧ t.pc = s.pc + 1 ∧ t.mar = s.pc ∧ t.ir = fetchText s.pc s ∧ t.mdr = t.ir ∧ t.cfg = s.cfg ∧
        t.refused = none ∧ t.mem.text = s.mem.text ∧ t.mem.tag = s.mem.tag ∧
        ((decodedAt s.pc s = .blank ∧ t = fetch s) ∨
          (∃ e, t.log = s.log ++ [e] ∧ e.pc? = some s.pc ∧ e.text? = some t.ir ∧
            ((∃ i, decodedAt s.pc s = .instr i ∧ exec i (fetch s) = .next t) ∨
              (∃ k, decodedAt s.pc s = .anomaly k ∧ t = recordAnomaly k (fetch s))))))) := by
  obtain ⟨b, h⟩ := step_next_iff.mp h
  obtain ⟨hr, ⟨hs, rfl, -⟩ | ⟨hf, -, ⟨hd, rfl⟩ | ⟨i, hd, he⟩ | ⟨k, hd, rfl⟩⟩⟩ := runCycle_cases h
  · exact ⟨hr, .inl ⟨hs, rfl⟩⟩
  · exact ⟨hr, .inr ⟨hf, rfl, rfl, rfl, rfl, rfl, hr, rfl, rfl, .inl ⟨hd, rfl⟩⟩⟩
  · obtain ⟨t', e, he', hl, hp, ht, hc, hpc, hir, hmar, hmdr, href, htx, htg, -⟩ := exec_cases i (fetch s)
    obtain rfl : t' = t := by rw [he] at he'; injection he' with h'; exact h'.symm
    exact ⟨hr, .inr ⟨hf, hpc, hmar, hir, hmdr.trans hir.symm, hc, href.trans hr, htx, htg,
      .inr ⟨e, hl, hp, ht.trans (congrArg some hir.symm), .inl ⟨i, hd, he⟩⟩⟩⟩
  · exact ⟨hr, .inr ⟨hf, rfl, rfl, rfl, rfl, rfl, hr, rfl, rfl,
      .inr ⟨_, rfl, anomalyEvent_pc .., anomalyEvent_text .., .inr ⟨k, hd, rfl⟩⟩⟩⟩

end Sys2Proof.Machine
end

