-- ==== Sys2Proof/Laws/PerInstr.lean ====
section
/-!
SUPPORT. Facts about every instruction as it is written, one lemma per constructor: its canonical text is in the
admitted alphabet (30_encoding.md R54, R69).
-/

namespace Sys2Proof.Laws

open Sys2Proof

theorem isDigit_digitChar {d : Nat} (h : d < 10) : isDigit (digitChar d) = true := by
  have : ∀ d < 10, isDigit (digitChar d) = true := by decide
  exact this d h

theorem decimalFrom_digits (fuel n : Nat) {acc : Text} (h : acc.all isDigit = true) :
    (decimalFrom fuel n acc).all isDigit = true := by
  induction fuel generalizing n acc with
  | zero => exact h
  | succ fuel ih =>
    unfold decimalFrom
    split
    · next hn => simp only [List.all_cons, isDigit_digitChar hn, h, Bool.and_self]
    · exact ih _ (by
        simp only [List.all_cons, isDigit_digitChar (Nat.mod_lt n (by omega)), h, Bool.and_self])

/-- A decimal numeral holds digits only. -/
theorem decimal_digits (n : Nat) : (decimal n).all isDigit = true := decimalFrom_digits _ _ rfl

theorem isAdmitted_of_isDigit {c : Char} (h : isDigit c = true) : isAdmitted c = true := by
  simp only [isDigit, Bool.and_eq_true, decide_eq_true_eq] at h
  simp only [isAdmitted, Bool.or_eq_true, Bool.and_eq_true, decide_eq_true_eq]
  omega

theorem encodeInt_admitted (a : Int) : (encodeInt a).all isAdmitted = true := by
  have hd : ∀ n, (decimal n).all isAdmitted = true := fun n =>
    List.all_eq_true.mpr fun c hc => isAdmitted_of_isDigit (List.all_eq_true.mp (decimal_digits n) c hc)
  unfold encodeInt
  split
  · rw [List.all_cons, hd]; rfl
  · exact hd _

theorem encodeT1_admitted {op : Text} (h : op.all isAdmitted = true) (a : Int) :
    (encodeT1 op a).all isAdmitted = true := by
  rw [encodeT1, List.all_append, List.all_cons, h, encodeInt_admitted]; rfl

/-- The canonical text of an instruction is in the admitted alphabet. -/
def EncodedAlphabet.Statement (i : Instr) : Prop := (encode i).all isAdmitted = true

theorem EncodedAlphabet.load (a : Int) : EncodedAlphabet.Statement (.load a) := encodeT1_admitted (by decide) a

theorem EncodedAlphabet.store (a : Int) : EncodedAlphabet.Statement (.store a) := encodeT1_admitted (by decide) a

theorem EncodedAlphabet.add (a : Int) : EncodedAlphabet.Statement (.add a) := encodeT1_admitted (by decide) a

theorem EncodedAlphabet.sub (a : Int) : EncodedAlphabet.Statement (.sub a) := encodeT1_admitted (by decide) a

theorem EncodedAlphabet.hlt : EncodedAlphabet.Statement .hlt := by unfold EncodedAlphabet.Statement; decide

end Sys2Proof.Laws
end

