-- ==== Sys2Proof/Laws/Decode.lean ====
section
/-!
SUPPORT. The laws of the tokenizer, the operand reader and decode, each said once.
-/

namespace Sys2Proof.Laws

open Sys2Proof Sys2Proof.Machine

/-! ## Tokens -/

/-- Characters of a word are collected. -/
theorem tokensFrom_word (w v rest : Text) (h : v.all (fun c => !isWhitespace c) = true) :
    tokensFrom w (v ++ rest) = tokensFrom (w ++ v) rest := by
  induction v generalizing w with
  | nil => simp
  | cons c v ih =>
    simp only [List.all_cons, Bool.and_eq_true, Bool.not_eq_true'] at h
    rw [List.cons_append, tokensFrom, if_neg (by simp [h.1]), ih _ h.2, List.append_assoc]
    rfl

/-- Whitespace outside a word is skipped. -/
theorem tokensFrom_gap (g rest : Text) (h : g.all isWhitespace = true) :
    tokensFrom [] (g ++ rest) = tokensFrom [] rest := by
  induction g with
  | nil => rfl
  | cons c g ih =>
    simp only [List.all_cons, Bool.and_eq_true] at h
    rw [List.cons_append, tokensFrom, if_pos h.1, ih h.2]
    rfl

/-- Whitespace after a word ends it. -/
theorem tokensFrom_close {w g : Text} (rest : Text) (hw : w ≠ []) (hg : g ≠ []) (h : g.all isWhitespace = true) :
    tokensFrom w (g ++ rest) = w :: tokensFrom [] rest := by
  cases g with
  | nil => exact absurd rfl hg
  | cons c g =>
    simp only [List.all_cons, Bool.and_eq_true] at h
    rw [List.cons_append, tokensFrom, if_pos h.1, tokensFrom_gap g rest h.2]
    simp [closeToken, hw]

/-! ## Digits -/

theorem isWhitespace_of_isDigit {c : Char} (h : isDigit c = true) : isWhitespace c = false := by
  simp only [isDigit, Bool.and_eq_true, decide_eq_true_eq] at h
  simp [isWhitespace]; omega

theorem isAdmitted_of_isWhitespace {c : Char} (h : isWhitespace c = true) : isAdmitted c = true := by
  simp [isWhitespace] at h
  simp [isAdmitted]; omega

theorem ne_of_isDigit {c d : Char} (h : isDigit c = true) (hd : isDigit d = false) : c ≠ d := by
  rintro rfl; simp_all

theorem unsigned_of_digits {ds : Text} (h : ds.all isDigit = true) : unsigned ds = ds := by
  cases ds with
  | nil => rfl
  | cons c ds =>
    simp only [List.all_cons, Bool.and_eq_true] at h
    simp [unsigned, ne_of_isDigit h.1 (d := '+') (by decide), ne_of_isDigit h.1 (d := '-') (by decide)]

theorem head_of_digits {ds : Text} (h : ds.all isDigit = true) : ds.head? ≠ some '-' := by
  cases ds with
  | nil => simp
  | cons c ds =>
    simp only [List.all_cons, Bool.and_eq_true] at h
    simp [ne_of_isDigit h.1 (d := '-') (by decide)]

theorem digitValue_digitChar {d : Nat} (h : d < 10) : digitValue (digitChar d) = d := by
  have : ∀ d < 10, digitValue (digitChar d) = d := by decide
  exact this d h

theorem digitsValue_append (ds : Text) (c : Char) :
    digitsValue (ds ++ [c]) = 10 * digitsValue ds + digitValue c := by
  simp [digitsValue]

/-- A canonical token is not ambiguous: no text meets both tests (30_encoding.md R62). -/
theorem not_ambiguous_of_canonical {t : Text} (h : isCanonical t = true) : isAmbiguous t = false := by
  simp [isAmbiguous, h]

/-! ## Decode -/

/-- `decode` on a text whose tokens pass the tests before the opcode. -/
theorem decode_of_spells {x : ExtraTokens} {txt op : Text} {rest : List Text} (h : Spells x txt op rest) :
    decode x txt = if op = opHLT then .instr .hlt else decodeOperand op rest := by
  obtain ⟨h1, h2, h3⟩ := h
  have : ¬(x = .refuse ∧ rest.length > arity op) := fun hx => absurd (h3 hx.1) (by omega)
  simp [decode, h1, h2, decodeTokens, this]

/-- The four outcomes of the tests before the opcode. -/
theorem decode_cases (x : ExtraTokens) (txt : Text) :
    (txt.all isAdmitted = false ∧ decode x txt = .refused .nonAsciiText) ∨
    (txt.all isAdmitted = true ∧ tokens txt = [] ∧ decode x txt = .blank) ∨
    (txt.all isAdmitted = true ∧ ∃ op rest, tokens txt = op :: rest ∧ x = .refuse ∧ arity op < rest.length ∧
      decode x txt = .refused .extraTokens) ∨
    (∃ op rest, Spells x txt op rest) := by
  by_cases h : txt.all isAdmitted = true
  · cases ht : tokens txt with
    | nil => exact .inr (.inl ⟨h, rfl, by simp [decode, h, ht, decodeTokens]⟩)
    | cons op rest =>
      by_cases hx : x = .refuse ∧ rest.length > arity op
      · exact .inr (.inr (.inl ⟨h, op, rest, rfl, hx.1, hx.2, by simp [decode, h, ht, decodeTokens, hx]⟩))
      · exact .inr (.inr (.inr ⟨op, rest, h, ht, fun hr => by simp only [hr, true_and] at hx; omega⟩))
  · exact .inl ⟨by simpa using h, by simp [decode, h]⟩

end Sys2Proof.Laws
end

