-- ==== Sys2Proof/Tests/Slice0.lean ====
section
/-!
SUPPORT. Tests whose expected values stand in 95_test_vectors.md, and for every statement that has hypotheses a
concrete state and operands that meet them.
-/

namespace Sys2Proof.Tests

open Sys2Proof Sys2Proof.Machine

/-! ## Helpers -/

/-- A core of `n` cells with these texts and data loaded, launched with this AC and PC (10_state.md R26). -/
def launch (n : Nat) (texts : List (Int × String)) (data : List (Int × Value)) (ac : Value) (pc : Nat) : State :=
  { loadProgram ⟨texts.map fun e => (e.1, e.2.toList), data⟩ (State.construct ⟨n, .ignore⟩) with ac := ac, pc := pc }

/-- The same core under `EXTRA_TOKENS = refuse`. -/
def refusing (s : State) : State := { s with cfg := { s.cfg with extraTokens := .refuse } }

/-- What an outcome that is no stop holds. -/
def answer {α : Type} : Host.Outcome α Fault Refusal → Option α
  | .next a => some a
  | .fault _ => none
  | .refused _ => none

/-- The reason of a refusal. -/
def reason {α : Type} : Host.Outcome α Fault Refusal → Option Refusal
  | .next _ => none
  | .fault _ => none
  | .refused r => some r

/-- AC, PC, halted and the log after a cycle, and what it returned. -/
def seen (o : Host.Outcome (State × Bool) Fault Refusal) : Option (Value × Nat × Bool × List Event × Bool) :=
  (answer o).map fun q => (q.1.ac, q.1.pc, q.1.halted, q.1.log, q.2)

/-- What the decoder reads from a string, under each value of `EXTRA_TOKENS`. -/
def decodes (s : String) : Decoded × Decoded := (decode .ignore s.toList, decode .refuse s.toList)

/-! ## WellFormed: one ill-formed program for each check -/

theorem test_wf_accepts : Program.wf 4 ⟨[(0, ['H', 'L', 'T']), (3, [])], [(0, 5), (3, -5)]⟩ = true := by decide

theorem test_wf_text_address : Program.wf 4 ⟨[(4, ['H', 'L', 'T'])], []⟩ = false := by decide

theorem test_wf_text_twice : Program.wf 4 ⟨[(1, ['H', 'L', 'T']), (1, [])], []⟩ = false := by decide

theorem test_wf_data_address : Program.wf 4 ⟨[], [(-1, 5)]⟩ = false := by decide

theorem test_wf_data_twice : Program.wf 4 ⟨[], [(2, 5), (2, 6)]⟩ = false := by decide

theorem test_wf_instr : ∀ a : Int, (Instr.load a).wf ∧ (Instr.store a).wf ∧ (Instr.add a).wf ∧ (Instr.sub a).wf ∧
    Instr.hlt.wf := fun _ => ⟨rfl, rfl, rfl, rfl, rfl⟩

/-! ## Decode: V-DEC1 to V-DEC35 -/

theorem test_decode_blank : decodes "" = (.blank, .blank) ∧ decodes "   \t\n" = (.blank, .blank) := by decide

theorem test_decode_load : decodes "LOAD 10" = (.instr (.load 10), .instr (.load 10)) ∧
    decodes "  LOAD\t10  " = (.instr (.load 10), .instr (.load 10)) ∧
    decodes "LOAD\x0b10" = (.instr (.load 10), .instr (.load 10)) ∧
    decodes "LOAD -3" = (.instr (.load (-3)), .instr (.load (-3))) ∧
    decodes "LOAD +7" = (.instr (.load 7), .instr (.load 7)) ∧
    decodes "LOAD 007" = (.instr (.load 7), .instr (.load 7)) ∧
    decodes "LOAD -0" = (.instr (.load 0), .instr (.load 0)) := by decide

theorem test_decode_store : decodes "STORE 99999999999999999999" =
    (.instr (.store 99999999999999999999), .instr (.store 99999999999999999999)) := by decide

theorem test_decode_missing : decodes "LOAD" = (.anomaly .missingOperand, .anomaly .missingOperand) ∧
    decodes "FOO" = (.anomaly .missingOperand, .anomaly .missingOperand) ∧
    decodes "hlt" = (.anomaly .missingOperand, .anomaly .missingOperand) ∧
    decodes ";" = (.anomaly .missingOperand, .anomaly .missingOperand) ∧
    decodes "LOAD,10" = (.anomaly .missingOperand, .anomaly .missingOperand) ∧
    decodes "_" = (.anomaly .missingOperand, .anomaly .missingOperand) := by decide

theorem test_decode_invalid : decodes "LOAD x" = (.anomaly .invalidOperand, .anomaly .invalidOperand) ∧
    decodes "LOAD 0x10" = (.anomaly .invalidOperand, .anomaly .invalidOperand) ∧
    decodes "LOAD 1e3" = (.anomaly .invalidOperand, .anomaly .invalidOperand) ∧
    decodes "LOAD --5" = (.anomaly .invalidOperand, .anomaly .invalidOperand) ∧
    decodes "SUB -" = (.anomaly .invalidOperand, .anomaly .invalidOperand) ∧
    decodes "SUB +" = (.anomaly .invalidOperand, .anomaly .invalidOperand) ∧
    decodes "FOO abc" = (.anomaly .invalidOperand, .anomaly .invalidOperand) ∧
    decodes "; note" = (.anomaly .invalidOperand, .anomaly .invalidOperand) := by decide

theorem test_decode_ambiguous :
    decodes "LOAD 1_0" = (.refused .ambiguousOperand, .refused .ambiguousOperand) ∧
    decodes "SUB _5" = (.refused .ambiguousOperand, .refused .ambiguousOperand) ∧
    decodes "ADD +1__2" = (.refused .ambiguousOperand, .refused .ambiguousOperand) := by decide

theorem test_decode_extra : decodes "LOAD 10 20" = (.instr (.load 10), .refused .extraTokens) ∧
    decodes "LOAD 10 ; note" = (.instr (.load 10), .refused .extraTokens) ∧
    decodes "HLT 5" = (.instr .hlt, .refused .extraTokens) ∧
    decodes "HLT abc" = (.instr .hlt, .refused .extraTokens) := by decide

theorem test_decode_unknown :
    decodes "load 10" = (.anomaly .unknownInstruction, .anomaly .unknownInstruction) ∧
    decodes "FOO 5" = (.anomaly .unknownInstruction, .anomaly .unknownInstruction) := by decide

theorem test_decode_halt : decodes "HLT" = (.instr .hlt, .instr .hlt) := by decide

theorem test_decode_alphabet :
    decodes "ADD 5\u00a0" = (.refused .nonAsciiText, .refused .nonAsciiText) := by decide

/-- The canonical spelling of 30_encoding.md R69. -/
theorem test_encode : encode (.load 10) = "LOAD 10".toList ∧ encode (.store (-1)) = "STORE -1".toList ∧
    encode (.add 0) = "ADD 0".toList ∧ encode (.sub 256) = "SUB 256".toList ∧ encode .hlt = "HLT".toList := by decide

/-- The codes of the characters of "ADD 7" and "HLT", the first the lowest byte (log entry 7). -/
theorem test_table_word : decodeTableWord 40 0x3720444441 = some (.add 7) ∧ decodeTableWord 24 0x544C48 = some .hlt ∧
    encodeTableWord .hlt = (24, 0x544C48) ∧ decodeTableWord 0 0 = none := by decide

/-! ## LOAD, STORE, ADD, SUB, HLT -/

/-- V-LD3 -/
theorem test_load_out_of_range : seen (runCycle (launch 256 [(0, "LOAD 300")] [] 9 0)) =
    some (0, 1, false, [.load 0 "LOAD 300".toList 300 9 0], true) := by decide

/-- V-LD10 -/
theorem test_load_instruction_cell : seen (runCycle (launch 256 [(0, "LOAD 4"), (4, "HLT")] [(4, 6)] 0 0)) =
    some (6, 1, false, [.load 0 "LOAD 4".toList 4 0 6], true) := by decide

/-- V-ST6 -/
theorem test_store_own_address :
    (answer (step (launch 256 [(0, "STORE 0")] [] (-3) 0))).map
      (fun t => (memRead 0 t, fetchText 0 t, tagRead 0 t, t.ac, t.log)) =
    some (-3, "STORE 0".toList, true, -3, [.store 0 "STORE 0".toList 0 0 (-3)]) := by decide

/-- V-ST3, but for the after-value, which is a draw. -/
theorem test_store_out_of_range : ∃ t m, step (launch 256 [(0, "STORE 256")] [] 7 0) = .next t ∧
    t.mem = (launch 256 [(0, "STORE 256")] [] 7 0).mem ∧ t.ac = 7 ∧
    t.log = [.store 0 "STORE 256".toList 256 0 m] := ⟨_, _, rfl, rfl, rfl, rfl⟩

/-- V-AD2 -/
theorem test_add_negative : seen (runCycle (launch 256 [(0, "ADD 11")] [(11, -8)] 5 0)) =
    some (-3, 1, false, [.add 0 "ADD 11".toList 11 5 (-3)], true) := by decide

/-- V-AD3 -/
theorem test_add_exact :
    seen (runCycle (launch 256 [(0, "ADD 1")] [(1, 9223372036854775807)] 9223372036854775807 0)) =
    some (18446744073709551614, 1, false, [.add 0 "ADD 1".toList 1 9223372036854775807 18446744073709551614], true) := by
  decide

/-- V-SB1 -/
theorem test_sub_below_zero : seen (runCycle (launch 256 [(0, "SUB 12")] [(12, 50)] 42 0)) =
    some (-8, 1, false, [.sub 0 "SUB 12".toList 12 42 (-8)], true) := by decide

/-- V-SB6 -/
theorem test_sub_most_negative : (answer (step (launch 256 [(0, "SUB 2")] [(2, -9223372036854775808)] 0 0))).map
    (fun t => t.ac) = some 9223372036854775808 := by decide

/-- V-H2 -/
theorem test_hlt_last_cell : (answer (runCycle (launch 4 [(3, "HLT")] [] 0 3))).map
    (fun q => (q.1.halted, q.1.pc, status q.1, q.1.log, q.2)) =
    some (true, 4, .halted, [.halt 3 "HLT".toList], false) := by decide

/-- V-H4 -/
theorem test_hlt_extra_token : seen (runCycle (launch 256 [(0, "HLT 5")] [] 0 0)) =
      some (0, 1, true, [.halt 0 "HLT 5".toList], false) ∧
    reason (runCycle (refusing (launch 256 [(0, "HLT 5")] [] 0 0))) = some (.instructionText .extraTokens) := by decide

/-! ## The cycle and the host -/

/-- V-L2 -/
theorem test_missing_operand : seen (runCycle (launch 256 [(0, "ADD")] [] 0 0)) =
    some (0, 1, false, [.missingOperand 0 "ADD".toList], true) := by decide

/-- V-C3 -/
theorem test_blank_cell : (answer (runCycle (launch 256 [(4, "   ")] [] 0 4))).map
    (fun q => (q.1.mar, q.1.ir, q.1.pc, q.1.log, q.2)) =
    some (4, "   ".toList, 5, [], true) := by decide

/-- V-C5 -/
theorem test_last_cell : (answer (runCycle (launch 8 [(7, "LOAD 1")] [] 0 7))).map
    (fun q => (q.1.pc, q.2, (answer (runCycle q.1)).map Prod.snd)) = some (8, true, some false) := by decide

/-- V-C9 -/
theorem test_refused_text :
    reason (runCycle (launch 256 [(0, "LOAD 1_0")] [] 0 0)) = some (.instructionText .ambiguousOperand) := by decide

/-- V-R2 -/
theorem test_run_blank : (answer (runProgram (State.construct ⟨3, .ignore⟩))).map
    (fun q => (q.1.pc, q.1.mar, q.1.ir, q.2)) = some (3, 2, [], [.runStart, .runEnd]) := by decide

/-- V-M4 and V-M5 -/
theorem test_set_instruction : memRead 2 (setInstruction 2 "HLT".toList (launch 256 [] [(2, 9)] 0 0)) = 9 ∧
    fetchText 2 (setInstruction 2 "LOAD 1".toList (launch 256 [(2, "HLT")] [] 0 0)) = "LOAD 1".toList := by decide

/-- V-M3, through the host's ports. -/
theorem test_host_ports : (answer (hostSession
      [.setInstruction 4 "ADD 1".toList, .setData 4 9, .getValue 4, .getInstruction 4, .isInstructionAddress 4] State.reset)).map
    Prod.snd = some [.nothing, .nothing, .value 9, .text "ADD 1".toList, .bool true] := by decide

/-- V-M8 -/
theorem test_dump : dump (-2) 3 (launch 4 [(1, "HLT")] [(2, 8)] 0 0) =
    [.data 0 0, .instruction 1 "HLT".toList, .data 2 8] := by decide

/-! ## Witnesses: the hypotheses of the statements are met -/

/-- The cells of program P4 on a fresh core of four cells. -/
def ready : State := launch 4 [(0, "LOAD 2"), (1, "HLT")] [(2, 5)] 0 0

/-- A core of four cells with one text in its last cell, about to fetch it. -/
def atLast (txt : String) : State := launch 4 [(3, txt)] [(2, 5)] 7 3

/-- A core that has halted, and one that has run past its last cell. -/
def halt : State := { ready with halted := true, pc := 2, ir := ['H', 'L', 'T'] }
@[inherit_doc halt] def past : State := launch 4 [] [(2, 5)] 7 4

/-- A core whose state is marked. -/
def marked : State := { ready with refused := some .ambiguousOperand }

/-- For DecodeReadsBackEncode and TableWordReadsBack. -/
theorem witness_encode : (Instr.load 0).wf = true ∧ (Instr.store (-1)).wf = true ∧ (Instr.add 7).wf = true ∧
    (Instr.sub 256).wf = true ∧ Instr.hlt.wf = true := by decide

theorem witness_TokensAreTheSpacedWords :
    let words : List (Text × Text) := [("ADD".toList, "\t ".toList), ("7".toList, " ".toList)]
    "  ".toList.all isWhitespace = true ∧ "x".toList.all (fun c => !isWhitespace c) = true ∧
    ([] : Text).all (fun c => !isWhitespace c) = true ∧
    ∀ p ∈ words, p.1 ≠ [] ∧ p.1.all (fun c => !isWhitespace c) = true ∧ p.2 ≠ [] ∧ p.2.all isWhitespace = true := by
  decide

theorem witness_ParseIntIsThePositionalValue : "07".toList ≠ [] ∧ "07".toList.all isDigit = true ∧
    "9".toList ≠ [] ∧ "9".toList.all isDigit = true := by decide

/-- The first and the last cell, and two distinct addresses: for MemWriteSetsOneDataCell, SetInstructionSetsTextAndTag,
StoreWritesTheAccumulator, StoreThenLoadRoundTrip. -/
theorem witness_inRange : ready.cfg.capacity = 4 ∧ InRange ready 0 ∧ InRange ready 3 ∧ (2 : Int) ≠ 3 := by decide

/-- The last address below and the first above memory: for the same, OutOfRangeAccessesGiveDefaults,
LoadReplacesTheAccumulator, AddAddsExactly and SubSubtractsExactly. -/
theorem witness_outOfRange : ((-1 : Int) < 0 ∨ (ready.cfg.capacity : Int) ≤ -1) ∧
    ((4 : Int) < 0 ∨ (ready.cfg.capacity : Int) ≤ 4) ∧ ¬InRange ready (-1) ∧ ¬InRange ready 4 := by decide

/-- For MemWriteSetsOneDataCell, SetInstructionSetsTextAndTag, ClearRestoresEveryCell, ReadPortsReturnTheViews, ObservationsChangeNothing and
BlankMemoryRunsToTheEnd. -/
theorem witness_unmarked : ready.refused = none ∧ ready.mem ≠ Memory.blank := by decide

theorem witness_ReadReturnsTheLastWrite : InRange ready 2 ∧
    memRead 2 ([some (2, 8), some (3, 1)].foldl (fun t w => dataWrite w t) ready) = 8 ∧
    memRead 2 ([some (2, 8), none, some (3, 1)].foldl (fun t w => dataWrite w t) ready) = 0 ∧
    memRead 2 ([some (3, 1)].foldl (fun t w => dataWrite w t) ready) = 5 := by decide

theorem witness_CanonicalMemoriesAreDetermined : ready.cfg = halt.cfg ∧ ready.mem.wf ready.cfg.capacity = true ∧
    halt.mem.wf halt.cfg.capacity = true ∧
    ∀ a : Int, memRead a ready = memRead a halt ∧ fetchText a ready = fetchText a halt ∧
      tagRead a ready = tagRead a halt :=
  ⟨by decide, by decide, by decide, fun _ => ⟨rfl, rfl, rfl⟩⟩

/-- For LoadReplacesTheAccumulator, StoreWritesTheAccumulator, AddAddsExactly and SubSubtractsExactly. -/
theorem witness_spelled : isCanonical "4".toList = true ∧ ∀ x, Spells x "LOAD 4".toList opLOAD ["4".toList] ∧
    Spells x "STORE 4".toList opSTORE ["4".toList] ∧ Spells x "ADD 4".toList opADD ["4".toList] ∧
    Spells x "SUB 4".toList opSUB ["4".toList] := by
  unfold Spells
  exact ⟨by decide, fun x => by cases x <;> decide⟩

theorem witness_HltHalts : (∃ t, exec .hlt ready = .next t) ∧ "HLT 5".toList.all isAdmitted = true ∧
    tokens "HLT 5".toList = opHLT :: ["5".toList] ∧ tokens "HLT".toList = opHLT :: [] ∧
    tokens "hlt".toList = ["hlt".toList] ∧ "hlt".toList ≠ opHLT :=
  ⟨⟨_, rfl⟩, by decide, by decide, by decide, by decide, by decide⟩

theorem witness_NonStoringInstructionsFrame :
    (∀ a, Instr.add 2 ≠ .store a) ∧ (∃ t, exec (.add 2) ready = .next t) ∧
    (∀ a, Instr.hlt ≠ .store a) ∧ (∃ t, exec .hlt ready = .next t) :=
  ⟨fun _ h => (nomatch h), ⟨_, rfl⟩, fun _ h => (nomatch h), ⟨_, rfl⟩⟩

theorem witness_StoreFrame : (∃ t, exec (.store 3) ready = .next t) ∧ (2 : Int) ≠ effectiveAddress 3 ready ∧
    (∃ t, exec (.store 4) ready = .next t) ∧ (3 : Int) ≠ effectiveAddress 4 ready :=
  ⟨⟨_, rfl⟩, by decide, ⟨_, rfl⟩, by decide⟩

/-- A LOAD, an ADD and a SUB that fill a memory of three cells. -/
def fold : State := launch 3 [(0, "LOAD 1"), (1, "ADD 1"), (2, "SUB 2")] [(1, 9223372036854775807), (2, -1)] 0 0

theorem witness_ArithmeticProgramFolds : fold.refused = none ∧ fold.halted = false ∧
    fold.pc + [(true, (1 : Int)), (false, 2)].length + 1 ≤ fold.cfg.capacity ∧
    decodedAt fold.pc fold = .instr (.load 1) ∧
    ∀ k : Nat, ∀ o, [(true, (1 : Int)), (false, 2)][k]? = some o →
      decodedAt ((fold.pc + 1 + k : Nat) : Int) fold = .instr (arithmeticInstr o) := by
  refine ⟨by decide, by decide, by decide, by decide, fun k o h => ?_⟩
  match k with
  | 0 => cases h; decide
  | 1 => cases h; decide
  | k + 2 => cases h

theorem witness_StepRunsTheDecodedInstruction : Fetches ready ∧ decodedAt ready.pc ready = .instr (.load 2) ∧
    Fetches (atLast "SUB 2") ∧ decodedAt (atLast "SUB 2").pc (atLast "SUB 2") = .instr (.sub 2) := by decide

theorem witness_PlacedTextIsFetchedNext : Fetches ready ∧
    decode ready.cfg.extraTokens (textOfWord 40 0x3720444441) = .instr (.add 7) := by decide

theorem witness_BlankCellIsANoOp : Fetches (atLast " \t") ∧
    (fetchText (atLast " \t").pc (atLast " \t")).all isWhitespace = true ∧ halt.halted = true ∧
    ready.ir.all isWhitespace = true := by decide

/-- One text for each of the three clauses. -/
theorem witness_AnomaliesAreRecordedAndSkipped :
    (Fetches (atLast "ADD") ∧ Spells .ignore (fetchText 3 (atLast "ADD")) opADD [] ∧ opADD ≠ opHLT) ∧
    (Fetches (atLast "SUB abc") ∧ Spells .ignore (fetchText 3 (atLast "SUB abc")) opSUB ["abc".toList] ∧
      opSUB ≠ opHLT ∧ isCanonical "abc".toList = false ∧ isAmbiguous "abc".toList = false) ∧
    (Fetches (atLast "MUL 5") ∧ Spells .ignore (fetchText 3 (atLast "MUL 5")) "MUL".toList ["5".toList] ∧
      "MUL".toList ≠ opHLT ∧ isCanonical "5".toList = true ∧ UnknownOpcode "MUL".toList) := by
  unfold Spells UnknownOpcode; decide

theorem witness_RefusedTextHasNoTransition : Fetches (atLast "LOAD 1_0") ∧
    decodedAt (atLast "LOAD 1_0").pc (atLast "LOAD 1_0") = .refused .ambiguousOperand ∧
    marked.refused = some .ambiguousOperand := by decide

/-- One state for each clause: marked, halted, past the last cell, fetching, fetching a refused text. -/
theorem witness_CycleFollowsItsPhases : marked.refused ≠ none ∧ (halt.refused = none ∧ halt.halted = true) ∧
    (past.refused = none ∧ past.cfg.capacity ≤ past.pc) ∧
    (∃ t, Fetches ready ∧ decodeExecute (fetch ready) = .next t ∧ t.refused = none) ∧
    (∃ t, Fetches (atLast "ADD _1") ∧ decodeExecute (fetch (atLast "ADD _1")) = .next t ∧ t.refused ≠ none) ∧
    (∃ q, runCycle ready = .next q) ∧ (∃ r, runCycle (atLast "ADD _1") = .refused r) :=
  ⟨by decide, by decide, by decide, ⟨_, by decide, rfl, rfl⟩, ⟨_, by decide, rfl, fun h => (nomatch h)⟩, ⟨_, rfl⟩,
    ⟨_, rfl⟩⟩

/-- For CycleReturnsWhetherToContinue, StepsAccumulateEvents and CycleDoesNotReadTags. -/
theorem witness_cycle : (∃ t, runCycle ready = .next (t, true)) ∧ (∃ t, runCycle (atLast "HLT") = .next (t, false)) ∧
    (∃ t, ¬Fetches past ∧ runCycle past = .next (t, false)) :=
  ⟨⟨_, rfl⟩, ⟨_, rfl⟩, ⟨_, by decide, rfl⟩⟩

theorem witness_EventsHoldFetchAddressAndText : ∃ t e, step ready = .next t ∧ t.log = ready.log ++ [e] :=
  ⟨_, _, rfl, rfl⟩

theorem witness_OneEventPerFetchingCycle :
    (∃ t, step ready = .next t ∧ Fetches ready ∧ decodedAt ready.pc ready ≠ .blank) ∧
    (∃ t, step (atLast "") = .next t ∧ Fetches (atLast "") ∧ decodedAt (atLast "").pc (atLast "") = .blank) ∧
    (∃ t, step halt = .next t ∧ ¬Fetches halt) :=
  ⟨⟨_, rfl, by decide, by decide⟩, ⟨_, rfl, by decide, by decide⟩, ⟨_, rfl, by decide⟩⟩

/-- One step for each of the eight kinds of event, with the codes of 10_state.md R20. -/
theorem witness_EventKindTellsTheOutcome :
    ∀ p ∈ [("LOAD 2", 1), ("STORE 3", 2), ("ADD 2", 3), ("SUB 2", 4), ("HLT", 5), ("ADD", 6), ("ADD x", 7), ("MUL 5", 8)],
      (answer (step (atLast p.1))).map (fun t => t.log.map Event.code) = some [p.2] := by decide

theorem witness_PcAdvancesByOneCell :
    (∃ t, step (atLast "ADD 2") = .next t ∧ Fetches (atLast "ADD 2") ∧ t.pc = 4) ∧
    (∃ t, step past = .next t ∧ ¬Fetches past) := ⟨⟨_, rfl, by decide, rfl⟩, ⟨_, rfl, by decide⟩⟩

theorem witness_WritersOfAccumulatorAndData : (∃ t, step (atLast "ADD 2") = .next t ∧ t.ac ≠ (atLast "ADD 2").ac) ∧
    (∃ t, step (atLast "STORE 2") = .next t ∧ memRead 2 t ≠ memRead 2 (atLast "STORE 2")) :=
  ⟨⟨_, rfl, by decide⟩, ⟨_, rfl, by decide⟩⟩

theorem witness_RunRepeatsCyclesUntilFalse : ready.refused = none ∧ (past.refused = none ∧ Stopped past) ∧
    (halt.refused = none ∧ Stopped halt) ∧ (∃ q, runProgram ready = .next q) ∧
    ((atLast "ADD _1").refused = none ∧ ∃ r, runProgram (atLast "ADD _1") = .refused r) ∧
    (∃ q, hostStep (.setData 2 1) ready = .next q) :=
  ⟨by decide, by decide, by decide, ⟨_, rfl⟩, ⟨by decide, _, rfl⟩, ⟨_, rfl⟩⟩

theorem witness_EveryRunEnds : ready.refused = none ∧ NoRefusedText ready := by
  refine ⟨by decide, fun a r _ => ?_⟩
  by_cases h : a < 4
  · have : ∀ b < 4, ∀ q, decodedAt ((b : Nat) : Int) ready ≠ .refused q := by
      intro b hb q; cases q <;> revert b <;> decide
    exact this a h r
  · have hc : ready.cfg.capacity = 4 := by decide
    rw [decodedAt, fetchText_of_not_inRange (by unfold InRange; omega)]
    exact fun h => nomatch h

/-- One state for each clause, the last cell, N = 0 and the refused text among them. -/
theorem witness_StatusTransitions :
    (status (atLast "HLT") = .ready ∧ decodedAt 3 (atLast "HLT") = .instr .hlt) ∧
    (status (atLast "ADD") = .ready ∧ (∀ r, decodedAt 3 (atLast "ADD") ≠ .refused r) ∧
      (atLast "ADD").pc + 1 = (atLast "ADD").cfg.capacity) ∧
    (status ready = .ready ∧ decodedAt 0 ready ≠ .instr .hlt ∧ (∀ r, decodedAt 0 ready ≠ .refused r) ∧
      ready.pc + 1 ≠ ready.cfg.capacity) ∧
    (status (atLast "ADD 5\u00a0") = .ready ∧ decodedAt 3 (atLast "ADD 5\u00a0") = .refused .nonAsciiText) ∧
    status halt ≠ .ready ∧ status past ≠ .ready ∧ (∃ q, runProgram ready = .next q) ∧
    (∃ q, runProgram past = .next q) ∧
    status (State.construct ⟨0, .ignore⟩) = .outOfBounds ∧ (∃ q, hostStep .clear halt = .next q) :=
  ⟨by decide, ⟨by decide, fun r => by cases r <;> decide, by decide⟩,
    ⟨by decide, by decide, fun r => by cases r <;> decide, by decide⟩, by decide, by decide, by decide,
    ⟨_, rfl⟩, ⟨_, rfl⟩, by decide, ⟨_, rfl⟩⟩

theorem witness_HaltedUntilReset : (Fetches (atLast "HLT") ∧ decodedAt 3 (atLast "HLT") = .instr .hlt) ∧
    halt.halted = true ∧ (∃ q, hostStep .run halt = .next q) ∧ (HostOp.run ≠ .reset) :=
  ⟨by decide, by decide, ⟨_, rfl⟩, by decide⟩

theorem witness_OnlyHltSetsHalted : ready.halted = false ∧
    (∃ t r, hostStep .run ready = .next (t, r) ∧ t.halted = true) ∧
    (∃ t r, hostStep .step (atLast "HLT") = .next (t, r) ∧ t.halted = true) :=
  ⟨by decide, ⟨_, _, rfl, rfl⟩, ⟨_, _, rfl, rfl⟩⟩

theorem witness_ParametersNeverChange : (∃ q, hostStep .run ready = .next q) ∧ ∃ q, hostStep .reset halt = .next q :=
  ⟨⟨_, rfl⟩, ⟨_, rfl⟩⟩

theorem witness_ResetReinitializesEverything : halt.refused = none ∧ marked.refused ≠ none := by decide

theorem witness_FreshCoreEqualsResetCore : halt.refused = none ∧ HostOp.snapshot ≠ .step ∧ HostOp.snapshot ≠ .run := by
  decide

theorem witness_ResetStartsAtAddressZero : halt.refused = none ∧ 0 < halt.cfg.capacity ∧
    (∀ r, decode halt.cfg.extraTokens "LOAD 2".toList ≠ .refused r) ∧
    (State.construct ⟨0, .ignore⟩).refused = none ∧ (State.construct ⟨0, .ignore⟩).cfg.capacity = 0 :=
  ⟨by decide, by decide, fun r => by cases r <;> decide, by decide, by decide⟩

theorem witness_LoadingPlacesTheProgram :
    Program.wf past.cfg.capacity ⟨[(0, "STORE 3".toList), (3, "HLT".toList)], [(0, 4), (3, -2)]⟩ = true := by decide

theorem witness_LoadingOrderIsFree : ready.mem.wf ready.cfg.capacity = true ∧ (0 : Int) ≠ 3 := by decide

/-- A state the invariant holds in, with a text loaded, that steps. -/
theorem witness_StepKeepsTheInvariant : SafeState (launch 2 [(1, "HLT")] [] 7 0) ∧
    ∃ t, step (launch 2 [(1, "HLT")] [] 7 0) = .next t := by
  refine ⟨⟨by decide, fun a => ?_, by decide, by decide, by decide, by decide, by decide⟩, ⟨_, rfl⟩⟩
  by_cases h : InRange (launch 2 [(1, "HLT")] [] 7 0) a
  · obtain ⟨h0, h2⟩ := h
    have h2 : a < 2 := h2
    obtain rfl | rfl : a = 0 ∨ a = 1 := by omega
    all_goals decide
  · intro _
    exact fetchText_of_not_inRange h

theorem witness_HostOperationKeepsTheInvariant : SafeState (launch 2 [(1, "HLT")] [] 7 0) ∧
    (∃ q, hostStep .run (launch 2 [(1, "HLT")] [] 7 0) = .next q) ∧
    (∃ q, hostStep .reset (launch 2 [(1, "HLT")] [] 7 0) = .next q) :=
  ⟨witness_StepKeepsTheInvariant.1, ⟨_, rfl⟩, ⟨_, rfl⟩⟩

theorem witness_ReachableStatesAreSafe : ∃ q,
    hostSession [.setInstruction 0 "LOAD 1".toList, .setData 1 5, .step, .run, .reset, .status]
      (State.construct ⟨2, .refuse⟩) = .next q := ⟨_, rfl⟩

end Sys2Proof.Tests
end

section
/-!
PROOFS. Memory and its ports (20_memory.md): what an access out of range, a data write, `clear()` and the read
ports do and leave unchanged.
-/

namespace Sys2Proof.Proofs

open Sys2Proof Sys2Proof.Machine

/-! ## What the memory operations and the host port share -/

/-- The two sides of `[0, N)` (20_memory.md R34). -/
theorem not_inRange_iff {s : State} {a : Int} : ¬InRange s a ↔ a < 0 ∨ (s.cfg.capacity : Int) ≤ a := by
  rw [not_and_or, not_le, not_lt]

theorem setMem_changes_only_mem (m : Memory) (s : State) : { s.setMem m with mem := s.mem } = s := rfl

theorem memWrite_changes_only_mem (a : Int) (v : Value) (s : State) : { memWrite a v s with mem := s.mem } = s := by
  by_cases h : InRange s a
  · rw [memWrite, if_pos h]
    exact setMem_changes_only_mem _ s
  · rw [memWrite_of_not_inRange v h]

theorem setData_eq (a : Int) (v : Value) (s : State) : setData a v s = memWrite a v s := rfl

/-- An unmarked state answers every host operation as the operation alone does (43_cycle_sequencer.md R96). -/
theorem hostStep_of_unmarked {s : State} (h : s.refused = none) (op : HostOp) : hostStep op s = hostApply s op :=
  unlessRefused_none h _

/-! ## The statements -/

/-- Settles O10, by the read-after-write laws of memory and the frame of a data write. -/
theorem memWriteSetsOneDataCell : Obligations.MemWriteSetsOneDataCell := by
  intro a v s
  refine ⟨memRead_memWrite_same v, fun b hb => memRead_memWrite_other v hb, fun b => ?views,
    memWrite_changes_only_mem a v s, memWrite_of_not_inRange v, setData_eq a v s, fun hr => ?port⟩
  case views => exact ⟨fetchText_memWrite b a v s, tagRead_memWrite b a v s⟩
  case port => rw [hostStep_of_unmarked hr, hostApply, setData_eq]

/-- Settles O9: out of range every primitive takes its default branch. -/
theorem outOfRangeAccessesGiveDefaults : Obligations.OutOfRangeAccessesGiveDefaults := by
  intro a s hout
  have h : ¬InRange s a := not_inRange_iff.mpr hout
  refine ⟨memRead_of_not_inRange h, fetchText_of_not_inRange h, tagRead_of_not_inRange h, fun v => ?_,
    fun txt => setInstruction_of_not_inRange txt h⟩
  exact ⟨memWrite_of_not_inRange v h, (setData_eq a v s).trans (memWrite_of_not_inRange v h)⟩

/-- Settles O12: the state after `clear()` is `clearMemory s`, whose memory is blank, as it is after a reset. -/
theorem clearRestoresEveryCell : Obligations.ClearRestoresEveryCell := by
  intro s hr
  refine ⟨clearMemory s, hostStep_of_unmarked hr .clear, ?reads, setMem_changes_only_mem Memory.blank s, ?reset⟩
  case reads => exact reads_of_blank_memory (clearMemory_mem s)
  case reset => rw [hostReset_mem, clearMemory_mem]

/-- Settles O13: on an unmarked state each read port is its arm of `hostApply`. -/
theorem readPortsReturnTheViews : Obligations.ReadPortsReturnTheViews := by
  intro a s hr
  exact ⟨hostStep_of_unmarked hr (.getValue a), hostStep_of_unmarked hr (.getInstruction a),
    hostStep_of_unmarked hr (.isInstructionAddress a)⟩

end Sys2Proof.Proofs
end

section
/-!
PROOFS. Data transfer (40_data_transfer.md): what LOAD and STORE do, and the frame of STORE and of the four
instructions that store nothing.
-/

namespace Sys2Proof.Proofs

open Sys2Proof Sys2Proof.Machine

/-! ## What the operand instructions share -/

/-- A canonical operand is read as its value, and only the opcode is left to tell (30_encoding.md R64). -/
theorem decode_of_canonical_operand {x : ExtraTokens} {txt op t : Text} {rest : List Text}
    (h : Spells x txt op (t :: rest)) (hc : isCanonical t = true) (hop : op ≠ opHLT) :
    decode x txt = decodeOperandOpcode op (parseInt t) := by
  have ha : isAmbiguous t = false := Laws.not_ambiguous_of_canonical hc
  rw [Laws.decode_of_spells h, if_neg hop]
  simp [decodeOperand, ha, hc]

/-- A data read sees neither texts nor tags (20_memory.md R52). -/
theorem memRead_ignores_texts_and_tags (a : Int) (s : State) (texts : List (Nat × Text)) (tags : List (Nat × Bool)) :
    memRead a { s with mem := { s.mem with text := texts, tag := tags } } = memRead a s := rfl

/-! ## LOAD and STORE -/

/-- LOAD, in closed form. -/
theorem exec_load (a : Int) (s : State) : exec (.load a) s = .next { s with
    ac := memRead a s
    log := s.log ++ [.load (s.pc - 1) s.ir a s.ac (memRead a s)] } := rfl

/-- The draw of an out-of-range STORE is one of the two values the spec allows (92_eei_decisions.md D13). -/
theorem ignoredStoreAfter_cases (s : State) : ignoredStoreAfter s = 0 ∨ ignoredStoreAfter s = s.ac := by
  unfold ignoredStoreAfter
  split
  · exact .inr rfl
  · exact .inl rfl

/-- In and out of range, STORE leaves the memory as its one data write does, adds one event and leaves the registers. -/
theorem exec_store_frame {a : Int} {s t : State} (h : exec (.store a) s = .next t) :
    t.mem = (memWrite a s.ac s).mem ∧ t.cfg = s.cfg ∧ t.ac = s.ac ∧ t.pc = s.pc ∧ t.ir = s.ir ∧ t.mar = s.mar ∧
    t.mdr = s.mdr ∧ t.halted = s.halted ∧ t.refused = s.refused ∧ ∃ e, t.log = s.log ++ [e] := by
  obtain ⟨t', e, ht, hlog, -, -, hcfg, hpc, hir, hmar, hmdr, hrefused, -, -, hcases⟩ := exec_cases (.store a) s
  obtain rfl := Host.Outcome.next.inj (ht.symm.trans h)
  obtain ⟨b, hi, hmem, hac, hhalted⟩ | ⟨hi, -⟩ | ⟨b, hi, -⟩ := hcases
  case inl =>
    obtain rfl := Instr.store.inj hi
    exact ⟨hmem, hcfg, hac, hpc, hir, hmar, hmdr, hhalted, hrefused, e, hlog⟩
  case inr.inl => cases hi
  case inr.inr => simp at hi

/-- So every read after STORE is the read after that data write. -/
theorem reads_of_exec_store {a : Int} {s t : State} (h : exec (.store a) s = .next t) (b : Int) :
    memRead b t = memRead b (memWrite a s.ac s) ∧ fetchText b t = fetchText b s ∧ tagRead b t = tagRead b s := by
  obtain ⟨hmem, hcfg, -⟩ := exec_store_frame h
  obtain ⟨hdata, htext, htag⟩ := reads_of_same_memory (hcfg.trans (memWrite_cfg a s.ac s).symm) hmem b
  exact ⟨hdata, htext.trans (fetchText_memWrite ..), htag.trans (tagRead_memWrite ..)⟩

/-! ## The statements -/

/-- Settles O19, by the two closed forms of STORE, in range and out of range. -/
theorem storeWritesTheAccumulator : Obligations.StoreWritesTheAccumulator := by
  intro a s
  have hdecode : ∀ x txt w rest, Spells x txt opSTORE (w :: rest) → isCanonical w = true →
      decode x txt = .instr (.store (parseInt w)) :=
    fun _ _ _ _ h hc => decode_of_canonical_operand h hc (by decide)
  by_cases h : InRange s a
  · have hcell {t : State} (ht : exec (.store a) s = .next t) : memRead a t = s.ac :=
      (reads_of_exec_store ht a).1.trans (memRead_memWrite_same s.ac h)
    exact ⟨_, s.ac, exec_store_inRange h, rfl, fun _ => ⟨hcell (exec_store_inRange h), rfl, rfl⟩,
      fun hn => absurd h hn, rfl, rfl, hdecode⟩
  · exact ⟨_, ignoredStoreAfter s, exec_store_outOfRange h, by rw [memRead_of_not_inRange h],
      fun hr => absurd hr h, fun _ => ⟨rfl, ignoredStoreAfter_cases s, rfl⟩, rfl, rfl, hdecode⟩

/-- Settles O23: of all that an execution can do, the cases other than STORE keep the memory and the draws. -/
theorem nonStoringInstructionsFrame : Obligations.NonStoringInstructionsFrame := by
  intro i s t hstore h
  obtain ⟨t', e, ht, hlog, -, -, hcfg, hpc, hir, hmar, hmdr, hrefused, -, -, hcases⟩ := exec_cases i s
  obtain rfl := Host.Outcome.next.inj (ht.symm.trans h)
  have hkept : t'.mem = s.mem ∧ t'.draws = s.draws ∧ (i ≠ .hlt → t'.halted = s.halted) ∧ (i = .hlt → t'.ac = s.ac) := by
    obtain ⟨a, hi, -⟩ | ⟨hi, hmem, hdraws, hac, -⟩ | ⟨a, hi, hmem, hdraws, hhalted⟩ := hcases
    case inl => exact absurd hi (hstore a)
    case inr.inl => exact ⟨hmem, hdraws, fun hne => absurd hi hne, fun _ => hac⟩
    case inr.inr =>
      have hne : i ≠ .hlt := by rintro rfl; simp at hi
      exact ⟨hmem, hdraws, fun _ => hhalted, fun hhlt => absurd hhlt hne⟩
  obtain ⟨hmem, hdraws, hhalted, hac⟩ := hkept
  exact ⟨reads_of_same_memory hcfg hmem, hpc, hir, hmar, hmdr, hcfg, hrefused, hdraws, ⟨e, hlog⟩, hhalted, hac⟩

/-- Settles O24: a STORE is one data write at its effective address, and leaves the registers. -/
theorem storeFrame : Obligations.StoreFrame := by
  intro a s t h
  obtain ⟨-, hcfg, hac, hpc, hir, hmar, hmdr, hhalted, hrefused, hlog⟩ := exec_store_frame h
  refine ⟨fun b hb => ?data, fun b => (reads_of_exec_store h b).2, hac, hpc, hir, hmar, hmdr, hhalted, hcfg,
    hrefused, hlog⟩
  case data => exact (reads_of_exec_store h b).1.trans (memRead_memWrite_other s.ac hb)

/-- Settles O18, by the closed form of LOAD. -/
theorem loadReplacesTheAccumulator : Obligations.LoadReplacesTheAccumulator := by
  intro a s
  refine ⟨exec_load a s, fun hout => memRead_of_not_inRange (not_inRange_iff.mpr hout),
    memRead_ignores_texts_and_tags a s, fun _ _ _ _ h hc => ?decode⟩
  case decode => exact decode_of_canonical_operand h hc (by decide)

end Sys2Proof.Proofs
end

section
/-!
PROOFS. Arithmetic (41_arithmetic.md): what ADD and SUB do, and the fold that a LOAD and any ADDs and SUBs leave in
the accumulator.
-/

namespace Sys2Proof.Proofs

open Sys2Proof Sys2Proof.Machine

/-! ## ADD and SUB -/

/-- ADD, in closed form. -/
theorem exec_add (a : Int) (s : State) : exec (.add a) s = .next { s with
    ac := s.ac + memRead a s
    log := s.log ++ [.add (s.pc - 1) s.ir a s.ac (s.ac + memRead a s)] } := rfl

/-- SUB, in closed form. -/
theorem exec_sub (a : Int) (s : State) : exec (.sub a) s = .next { s with
    ac := s.ac - memRead a s
    log := s.log ++ [.sub (s.pc - 1) s.ir a s.ac (s.ac - memRead a s)] } := rfl

/-! ## A cycle that writes the accumulator -/

/-- A step that fetches a text of instruction `i` answers what `i` answers on the state after fetch. -/
theorem step_of_instr {s t : State} {i : Instr} (hf : Fetches s) (hd : decodedAt s.pc s = .instr i)
    (he : exec i (fetch s) = .next t) : step s = .next t :=
  step_next_iff.mpr ⟨_, runCycle_instr hf hd he⟩

/-- The state after a cycle that fetched, put `v` in AC and appended event `e`: what LOAD, ADD and SUB leave
(`step_load`, `step_arithmetic`). -/
def afterAcWrite (v : Value) (e : Event) (s : State) : State := ((fetch s).setAc v).emit e

@[simp] theorem afterAcWrite_pc (v : Value) (e : Event) (s : State) : (afterAcWrite v e s).pc = s.pc + 1 := rfl
@[simp] theorem afterAcWrite_mem (v : Value) (e : Event) (s : State) : (afterAcWrite v e s).mem = s.mem := rfl

theorem step_load {s : State} {a : Int} (hf : Fetches s) (hd : decodedAt s.pc s = .instr (.load a)) :
    ∃ e, step s = .next (afterAcWrite (memRead a s) e s) :=
  ⟨_, step_of_instr hf hd (exec_load a (fetch s))⟩

theorem step_arithmetic {s : State} {o : Bool × Int} (hf : Fetches s)
    (hd : decodedAt s.pc s = .instr (arithmeticInstr o)) :
    ∃ e, step s = .next (afterAcWrite (arithmeticValue s s.ac o) e s) := by
  obtain ⟨_ | _, a⟩ := o
  case false => exact ⟨_, step_of_instr hf hd (exec_sub a (fetch s))⟩
  case true => exact ⟨_, step_of_instr hf hd (exec_add a (fetch s))⟩

/-! ## A run of ADDs and SUBs -/

/-- The cells from `p` on hold the ADDs and SUBs `ops`, one each. -/
def HoldsArithmetic (p : Nat) (ops : List (Bool × Int)) (s : State) : Prop :=
  ∀ k : Nat, ∀ o, ops[k]? = some o → decodedAt ((p + k : Nat) : Int) s = .instr (arithmeticInstr o)

theorem HoldsArithmetic.head {p : Nat} {o : Bool × Int} {ops : List (Bool × Int)} {s : State}
    (h : HoldsArithmetic p (o :: ops) s) : decodedAt p s = .instr (arithmeticInstr o) := h 0 o rfl

theorem HoldsArithmetic.tail {p : Nat} {o : Bool × Int} {ops : List (Bool × Int)} {s : State}
    (h : HoldsArithmetic p (o :: ops) s) : HoldsArithmetic (p + 1) ops s := by
  intro k q hk
  have hcell : p + 1 + k = p + (k + 1) := by omega
  rw [hcell]
  exact h (k + 1) q hk

theorem HoldsArithmetic.after_acWrite {p : Nat} {ops : List (Bool × Int)} {s : State}
    (h : HoldsArithmetic p ops s) (v : Value) (e : Event) : HoldsArithmetic p ops (afterAcWrite v e s) := h

theorem stepTimes_succ {s t : State} (h : step s = .next t) (k : Nat) : stepTimes (k + 1) s = stepTimes k t := by
  rw [stepTimes, h]

/-- `n` steps from `s` complete and leave `v` in AC, memory as it was, PC `n` cells on, and the core running. -/
def ComputesIn (n : Nat) (v : Value) (s : State) : Prop :=
  ∃ t, stepTimes n s = .next t ∧ t.ac = v ∧ t.mem = s.mem ∧ t.pc = s.pc + n ∧ t.halted = false ∧ t.refused = none

/-- A cycle that writes AC may stand in front of such a computation. -/
theorem ComputesIn.of_acWrite {n : Nat} {v w : Value} {e : Event} {s : State}
    (hstep : step s = .next (afterAcWrite w e s)) (h : ComputesIn n v (afterAcWrite w e s)) :
    ComputesIn (n + 1) v s := by
  obtain ⟨t, hrun, hac, hmem, hpc, hrest⟩ := h
  refine ⟨t, (stepTimes_succ hstep n).trans hrun, hac, hmem.trans (afterAcWrite_mem w e s), ?pc, hrest⟩
  case pc => rw [hpc, afterAcWrite_pc]; omega

/-- From any accumulator value, as many steps as there are ADDs and SUBs at PC fold them over it. -/
theorem computesIn_of_holdsArithmetic {ops : List (Bool × Int)} {s : State} (hr : s.refused = none)
    (hh : s.halted = false) (hroom : s.pc + ops.length ≤ s.cfg.capacity) (hops : HoldsArithmetic s.pc ops s) :
    ComputesIn ops.length (ops.foldl (arithmeticValue s) s.ac) s := by
  induction ops generalizing s with
  | nil => exact ⟨s, rfl, rfl, rfl, rfl, hh, hr⟩
  | cons o ops ih =>
    rw [List.length_cons] at hroom
    obtain ⟨e, hstep⟩ := step_arithmetic ⟨hr, hh, by omega⟩ hops.head
    have hroom' : s.pc + 1 + ops.length ≤ s.cfg.capacity := by omega
    exact .of_acWrite hstep (ih hr hh hroom' (hops.tail.after_acWrite _ e))

/-! ## The statements -/

/-- Settles O20, by the closed form of ADD. -/
theorem addAddsExactly : Obligations.AddAddsExactly := by
  intro a s
  refine ⟨exec_add a s, fun hout => ?outOfRange, memRead_ignores_texts_and_tags a s, fun _ _ _ _ h hc => ?decode⟩
  case outOfRange => rw [memRead_of_not_inRange (not_inRange_iff.mpr hout), Int.add_zero]
  case decode => exact decode_of_canonical_operand h hc (by decide)

/-- Settles O21, by the closed form of SUB. -/
theorem subSubtractsExactly : Obligations.SubSubtractsExactly := by
  intro a s
  refine ⟨exec_sub a s, fun hout => ?outOfRange, memRead_ignores_texts_and_tags a s, fun _ _ _ _ h hc => ?decode⟩
  case outOfRange => rw [memRead_of_not_inRange (not_inRange_iff.mpr hout), Int.sub_zero]
  case decode => exact decode_of_canonical_operand h hc (by decide)

/-- Settles O27: the LOAD's step puts its data value in AC, and the ADDs and SUBs after it fold over that value. -/
theorem arithmeticProgramFolds : Obligations.ArithmeticProgramFolds := by
  intro s a ops hr hh hroom hload hops
  obtain ⟨e, hstep⟩ := step_load ⟨hr, hh, by omega⟩ hload
  have hroom' : s.pc + 1 + ops.length ≤ s.cfg.capacity := by omega
  have hops' : HoldsArithmetic (s.pc + 1) ops s := hops
  exact ComputesIn.of_acWrite hstep (computesIn_of_holdsArithmetic hr hh hroom' (hops'.after_acWrite _ e))

end Sys2Proof.Proofs
end

section
/-!
PROOFS. Halting (42_halt.md): what HLT does and which texts decode to it, that a halted core stays halted until
reset, and that nothing but HLT halts it.
-/

namespace Sys2Proof.Proofs

open Sys2Proof Sys2Proof.Machine

/-! ## HLT -/

/-- HLT, in closed form. -/
theorem exec_hlt (s : State) : exec .hlt s = .next { s with
    halted := true
    log := s.log ++ [.halt (s.pc - 1) s.ir] } := rfl

/-- `halted` is tested before PC (43_cycle_sequencer.md R92). -/
theorem status_of_halted {s : State} (h : s.halted = true) : status s = .halted := if_pos h

/-- A text of first token HLT is recognized before its operands are looked at (42_halt.md R78). -/
theorem decode_of_spells_hlt {x : ExtraTokens} {txt : Text} {rest : List Text} (h : Spells x txt opHLT rest) :
    decode x txt = .instr .hlt := by
  rw [Laws.decode_of_spells h, if_pos rfl]

/-- Under `EXTRA_TOKENS = refuse` a text with more tokens than its opcode takes is refused (30_encoding.md R60). -/
theorem decode_refuse_of_extra_tokens {txt op : Text} {rest : List Text} (ha : txt.all isAdmitted = true)
    (ht : tokens txt = op :: rest) (hextra : arity op < rest.length) :
    decode .refuse txt = .refused .extraTokens := by
  simp [decode, decodeTokens, ha, ht, hextra]

/-- Every other opcode needs an operand (30_encoding.md R64). -/
theorem decode_of_spells_no_operand {x : ExtraTokens} {txt op : Text} (h : Spells x txt op []) (hop : op ≠ opHLT) :
    decode x txt = .anomaly .missingOperand := by
  rw [Laws.decode_of_spells h, if_neg hop]
  rfl

/-! ## Outcomes -/

theorem mapNext_next {α β : Type} {f : α → β} {o : Host.Outcome α Fault Refusal} {b : β}
    (h : mapNext f o = .next b) : ∃ a, o = .next a ∧ f a = b := by
  cases o with
  | next a => exact ⟨a, rfl, Host.Outcome.next.inj h⟩
  | fault e => cases h
  | refused r => cases h

/-! ## The full run -/

/-- The loop of a stopped core makes one call, which changes nothing. -/
theorem runLoop_succ_of_stopped {s : State} (hr : s.refused = none) (hs : Stopped s) (k : Nat) :
    runLoop (k + 1) s = .next s := by
  rw [runLoop, runCycle_of_stopped hr hs]

/-- A run of a stopped core only writes its banners (43_cycle_sequencer.md R90). -/
theorem runProgram_of_stopped {s : State} (hr : s.refused = none) (hs : Stopped s) :
    runProgram s = .next ({ s with log := [.runStart, .runEnd] }, [.runStart, .runEnd]) := by
  have hr' : (s.clearLog.emit .runStart).refused = none := hr
  have hs' : Stopped (s.clearLog.emit .runStart) := hs
  rw [runProgram, unlessRefused_none hr, runCalls, runLoop_succ_of_stopped hr' hs']
  rfl

/-- What every cycle keeps, the loop of a run keeps, however many calls it makes. -/
theorem runLoop_keeps {P : State → Prop} (hcycle : ∀ s t b, runCycle s = .next (t, b) → P s → P t)
    {k : Nat} {s t : State} (h : runLoop k s = .next t) (hs : P s) : P t := by
  induction k generalizing s with
  | zero => exact Host.Outcome.next.inj h ▸ hs
  | succ k ih =>
    unfold runLoop at h
    split at h
    next u hu => exact ih h (hcycle s u true hu hs)
    next u hu => exact Host.Outcome.next.inj h ▸ hcycle s u false hu hs
    next => cases h
    next => cases h

/-- A run that answers is its loop between the two banners. -/
theorem runProgram_next {s t : State} {l : List Event} (h : runProgram s = .next (t, l)) :
    ∃ u, runLoop (runCalls s) (s.clearLog.emit .runStart) = .next u ∧ t = u.emit .runEnd := by
  obtain ⟨-, h⟩ := unlessRefused_next h
  obtain ⟨u, hu, hut⟩ := mapNext_next h
  exact ⟨u, hu, (congrArg Prod.fst hut).symm⟩

/-! ## A host operation -/

theorem memWrite_eq_setMem (a : Int) (v : Value) (s : State) : memWrite a v s = s.setMem (memWrite a v s).mem := by
  unfold memWrite
  split <;> rfl

theorem setInstruction_eq_setMem (a : Int) (txt : Text) (s : State) :
    setInstruction a txt s = s.setMem (setInstruction a txt s).mem := by
  unfold setInstruction
  split <;> rfl

/-- All that a host operation which answers can do to the state: reset it, run a cycle or a run on it, or change at
most its memory. -/
theorem hostStep_cases {s t : State} {op : HostOp} {r : Reply} (h : hostStep op s = .next (t, r)) :
    s.refused = none ∧
    ((op = .reset ∧ t = hostReset s) ∨
      (op = .step ∧ ∃ b, runCycle s = .next (t, b)) ∨
      (op = .run ∧ ∃ l, runProgram s = .next (t, l)) ∨
      ∃ m, t = s.setMem m) := by
  obtain ⟨hr, h⟩ := unlessRefused_next h
  refine ⟨hr, ?_⟩
  cases op with
  | reset => cases h; exact .inl ⟨rfl, rfl⟩
  | step =>
    obtain ⟨⟨u, b⟩, hu, heq⟩ := mapNext_next h
    cases heq
    exact .inr (.inl ⟨rfl, b, hu⟩)
  | run =>
    obtain ⟨⟨u, l⟩, hu, heq⟩ := mapNext_next h
    cases heq
    exact .inr (.inr (.inl ⟨rfl, l, hu⟩))
  | setInstruction a txt => cases h; exact .inr (.inr (.inr ⟨_, setInstruction_eq_setMem a txt s⟩))
  | setData a v => cases h; exact .inr (.inr (.inr ⟨_, memWrite_eq_setMem a v s⟩))
  | clear => cases h; exact .inr (.inr (.inr ⟨Memory.blank, rfl⟩))
  | getValue | getInstruction | isInstructionAddress | dump | snapshot | readHalted | readLog | status =>
    cases h; exact .inr (.inr (.inr ⟨s.mem, rfl⟩))

/-! ## A halted core holds the HLT that halted it -/

/-- If the core is halted, IR holds a text that decodes to HLT (10_state.md R14, R18). -/
def HaltedByHlt (s : State) : Prop := s.halted = true → decode s.cfg.extraTokens s.ir = .instr .hlt

theorem haltedByHlt_of_running {s : State} (h : s.halted = false) : HaltedByHlt s :=
  fun hh => absurd hh (by simp [h])

theorem runCycle_keeps_cfg {s t : State} {b : Bool} (h : runCycle s = .next (t, b)) : t.cfg = s.cfg := by
  obtain ⟨-, ⟨-, rfl⟩ | ⟨-, -, -, -, -, hcfg, -⟩⟩ := step_cases (step_next_iff.mpr ⟨b, h⟩)
  · rfl
  · exact hcfg

/-- Of all that an execution can do, only HLT halts. -/
theorem exec_halts_only_by_hlt {i : Instr} {s t : State} (h : exec i s = .next t) (hs : s.halted = false)
    (ht : t.halted = true) : i = .hlt := by
  obtain ⟨t', -, he, -, -, -, -, -, -, -, -, -, -, -, hcases⟩ := exec_cases i s
  obtain rfl := Host.Outcome.next.inj (he.symm.trans h)
  obtain ⟨_, _, _, _, hhalted⟩ | ⟨hi, -⟩ | ⟨_, _, _, _, hhalted⟩ := hcases
  · simp [hhalted, hs] at ht
  · exact hi
  · simp [hhalted, hs] at ht

theorem runCycle_keeps_haltedByHlt {s t : State} {b : Bool} (h : runCycle s = .next (t, b)) (hs : HaltedByHlt s) :
    HaltedByHlt t := by
  obtain ⟨-, ⟨-, rfl, -⟩ | ⟨hf, -, ⟨-, rfl⟩ | ⟨i, hd, he⟩ | ⟨k, -, rfl⟩⟩⟩ := runCycle_cases h
  case inl => exact hs
  case inr.inl => exact haltedByHlt_of_running hf.2.1
  case inr.inr.inl =>
    intro ht
    obtain rfl := exec_halts_only_by_hlt he hf.2.1 ht
    rw [exec_hlt] at he
    cases he
    exact hd
  case inr.inr.inr => exact haltedByHlt_of_running hf.2.1

/-! ## The statements -/

/-- Settles O22, by the closed form of HLT and the tests of `decode` before the operand. -/
theorem hltHalts : Obligations.HltHalts := by
  intro s
  refine ⟨exec_hlt s, fun t h => ?status, fun txt rest ha ht => ⟨?ignored, ?alone, ?extra⟩,
    fun x txt op ha ht hop => ?missing⟩
  case status =>
    rw [exec_hlt] at h
    exact Host.Outcome.next.inj h ▸ status_of_halted rfl
  case ignored => exact decode_of_spells_hlt ⟨ha, ht, fun hx => nomatch hx⟩
  case alone =>
    rintro rfl
    exact decode_of_spells_hlt ⟨ha, ht, fun _ => Nat.zero_le _⟩
  case extra => exact fun hrest => decode_refuse_of_extra_tokens ha ht (List.length_pos_iff.mpr hrest)
  case missing => exact decode_of_spells_no_operand ⟨ha, ht, fun _ => Nat.zero_le _⟩ hop

/-- Settles O47: a halted core is stopped, so a cycle leaves it and a run writes its banners; the other operations
but reset change only memory. -/
theorem haltedUntilReset : Obligations.HaltedUntilReset := by
  refine ⟨fun s hf hd => ?afterHlt, fun s t op r hs h hop => ?stays⟩
  case afterHlt =>
    have hcycle := runCycle_instr hf hd (exec_hlt (fetch s))
    exact ⟨_, hcycle, rfl, runCycle_of_stopped hf.1 (.inl rfl), runProgram_of_stopped hf.1 (.inl rfl)⟩
  case stays =>
    obtain ⟨hr, ⟨hreset, -⟩ | ⟨-, b, hcycle⟩ | ⟨-, l, hrun⟩ | ⟨m, rfl⟩⟩ := hostStep_cases h
    · exact absurd hreset hop
    · rw [runCycle_of_stopped hr (.inl hs)] at hcycle
      cases hcycle
      exact hs
    · rw [runProgram_of_stopped hr (.inl hs)] at hrun
      cases hrun
      exact hs
    · exact hs

/-- Settles O48: `HaltedByHlt` holds of a running core and every cycle keeps it, hence every run. -/
theorem onlyHltSetsHalted : Obligations.OnlyHltSetsHalted := by
  intro s t op r hs h ht
  have hstart : HaltedByHlt s := haltedByHlt_of_running hs
  obtain ⟨-, ⟨-, rfl⟩ | ⟨hop, b, hcycle⟩ | ⟨hop, l, hrun⟩ | ⟨m, rfl⟩⟩ := hostStep_cases h
  · cases ht
  · exact ⟨.inl hop, runCycle_keeps_cfg hcycle ▸ runCycle_keeps_haltedByHlt hcycle hstart ht⟩
  · obtain ⟨u, hloop, rfl⟩ := runProgram_next hrun
    have hcfg : u.cfg = s.cfg :=
      runLoop_keeps (P := fun u => u.cfg = s.cfg) (fun _ _ _ hc hp => (runCycle_keeps_cfg hc).trans hp) hloop rfl
    have hu : HaltedByHlt u := runLoop_keeps (fun _ _ _ => runCycle_keeps_haltedByHlt) hloop hstart
    exact ⟨.inr hop, hcfg ▸ hu ht⟩
  · exact absurd ht (by simp [hs])

end Sys2Proof.Proofs
end

section
/-!
PROOFS. The cycle sequencer (43_cycle_sequencer.md): the phases of a cycle and the events it appends, the full run as
the unbounded repetition of cycles, and the state machine of the three statuses.
-/

namespace Sys2Proof.Proofs

open Sys2Proof Sys2Proof.Machine

/-! ## Fetch and decode-execute -/

/-- Fetch, in closed form. -/
theorem fetch_eq (s : State) :
    fetch s = { s with mar := s.pc, mdr := fetchText s.pc s, ir := fetchText s.pc s, pc := s.pc + 1 } := rfl

theorem fetch_ignores_tags (s : State) (tags : List (Nat × Bool)) :
    fetch { s with mem := { s.mem with tag := tags } } = { fetch s with mem := { s.mem with tag := tags } } := rfl

/-- A text of whitespace only has no token and is blank (30_encoding.md R56). -/
theorem decode_of_whitespace (x : ExtraTokens) {txt : Text} (h : txt.all isWhitespace = true) :
    decode x txt = .blank := by
  have hadmitted : txt.all isAdmitted = true := List.all_eq_true.mpr fun c hc =>
    Laws.isAdmitted_of_isWhitespace (List.all_eq_true.mp h c hc)
  have htokens : tokens txt = [] := by
    have hgap := Laws.tokensFrom_gap txt [] h
    rwa [List.append_nil] at hgap
  rw [decode, if_pos hadmitted, htokens, decodeTokens]

theorem decodeExecute_of_halted {s : State} (h : s.halted = true) : decodeExecute s = .next s := if_pos h

theorem decodeExecute_of_blank {s : State} (h : decode s.cfg.extraTokens s.ir = .blank) :
    decodeExecute s = .next s := by
  rw [decodeExecute, h, ite_self]

/-! ## The cycle -/

theorem runCycle_of_marked {s : State} {r : RefusalReason} (h : s.refused = some r) :
    runCycle s = .refused (.instructionText r) := unlessRefused_some h _

/-- What a fetching cycle answers follows from the state decode-execute leaves (43_cycle_sequencer.md R88). -/
theorem runCycle_of_decodeExecute {s t : State} (hf : Fetches s) (h : decodeExecute (fetch s) = .next t) :
    runCycle s = unlessRefused t (.next (t, !t.halted)) := by
  rw [runCycle_of_fetches hf, h, finishCycle]

/-- A cycle that returns true has fetched (43_cycle_sequencer.md R89). -/
theorem runCycle_true {s t : State} (h : runCycle s = .next (t, true)) :
    Fetches s ∧ t.pc = s.pc + 1 ∧ t.cfg = s.cfg := by
  obtain ⟨hr, ⟨hs, -⟩ | ⟨hf, hpc, -, -, -, hcfg, -⟩⟩ := step_cases (step_next_iff.mpr ⟨true, h⟩)
  · rw [runCycle_of_stopped hr hs] at h
    cases h
  · exact ⟨hf, hpc, hcfg⟩

/-- A cycle that returns false leaves a stopped core. -/
theorem runCycle_false_stopped {s t : State} (h : runCycle s = .next (t, false)) : Stopped t := by
  obtain ⟨-, ⟨hs, rfl, -⟩ | ⟨-, hb, -⟩⟩ := runCycle_cases h
  · exact hs
  · exact .inl (by simpa using hb)

/-- A cycle that fetches a text which is neither refused nor HLT leaves the core running. -/
theorem runCycle_continues {s : State} (hf : Fetches s) (hlt : decodedAt s.pc s ≠ .instr .hlt)
    (href : ∀ r, decodedAt s.pc s ≠ .refused r) : ∃ t, runCycle s = .next (t, true) ∧ t.halted = false := by
  cases hd : decodedAt s.pc s with
  | blank => exact ⟨_, runCycle_blank hf hd, hf.2.1⟩
  | anomaly k => exact ⟨_, runCycle_anomaly hf hd, hf.2.1⟩
  | refused r => exact absurd hd (href r)
  | instr i =>
    obtain ⟨t, he, -⟩ := exec_runs i (fetch s)
    have hrunning : t.halted = false := Bool.eq_false_iff.mpr fun ht =>
      hlt (hd.trans (congrArg Decoded.instr (exec_halts_only_by_hlt he hf.2.1 ht)))
    have hcycle := runCycle_instr hf hd he
    rw [hrunning] at hcycle
    exact ⟨t, hcycle, hrunning⟩

/-! ## The log -/

/-- The log only grows, at its end (43_cycle_sequencer.md R95). -/
theorem step_extends_log {s t : State} (h : step s = .next t) : ∃ new, t.log = s.log ++ new := by
  obtain ⟨-, ⟨-, rfl⟩ | ⟨-, -, -, -, -, -, -, -, -, ⟨-, rfl⟩ | ⟨e, hlog, -⟩⟩⟩ := step_cases h
  · exact ⟨[], (List.append_nil _).symm⟩
  · exact ⟨[], (List.append_nil _).symm⟩
  · exact ⟨[e], hlog⟩

/-- The state with earlier events in front of its log. -/
def prependLog (earlier : List Event) (s : State) : State := { s with log := earlier ++ s.log }

theorem emit_prependLog (earlier : List Event) (e : Event) (s : State) :
    (prependLog earlier s).emit e = prependLog earlier (s.emit e) := by
  simp [prependLog, State.emit]

/-- No instruction reads the log. -/
theorem exec_prependLog (earlier : List Event) {i : Instr} {s t : State} (h : exec i s = .next t) :
    exec i (prependLog earlier s) = .next (prependLog earlier t) := by
  cases i with
  | load a => cases h; exact congrArg Host.Outcome.next (emit_prependLog earlier _ (s.setAc _))
  | add a => cases h; exact congrArg Host.Outcome.next (emit_prependLog earlier _ (s.setAc _))
  | sub a => cases h; exact congrArg Host.Outcome.next (emit_prependLog earlier _ (s.setAc _))
  | hlt => cases h; exact congrArg Host.Outcome.next (emit_prependLog earlier _ s.setHalted)
  | store a =>
    by_cases ha : InRange s a
    · have ha' : InRange (prependLog earlier s) a := ha
      obtain rfl := Host.Outcome.next.inj ((exec_store_inRange ha).symm.trans h)
      exact (exec_store_inRange ha').trans (congrArg Host.Outcome.next (emit_prependLog earlier _
        (s.setMem { s.mem with data := viewWrite 0 s.mem.data a.toNat s.ac })))
    · have ha' : ¬InRange (prependLog earlier s) a := ha
      obtain rfl := Host.Outcome.next.inj ((exec_store_outOfRange ha).symm.trans h)
      exact (exec_store_outOfRange ha').trans (congrArg Host.Outcome.next (emit_prependLog earlier _ s.countDraw))

/-- A step does the same whatever earlier events the log holds (43_cycle_sequencer.md R95). -/
theorem step_prependLog (earlier : List Event) {s t : State} (h : step s = .next t) :
    step (prependLog earlier s) = .next (prependLog earlier t) := by
  obtain ⟨b, h⟩ := step_next_iff.mp h
  refine step_next_iff.mpr ?_
  obtain ⟨hr, ⟨hs, rfl, -⟩ | ⟨hf, -, ⟨hd, rfl⟩ | ⟨i, hd, he⟩ | ⟨k, hd, rfl⟩⟩⟩ := runCycle_cases h
  · exact ⟨false, runCycle_of_stopped hr hs⟩
  all_goals have hf' : Fetches (prependLog earlier s) := hf
  · exact ⟨true, runCycle_blank hf' hd⟩
  · exact ⟨_, runCycle_instr hf' hd (exec_prependLog earlier he)⟩
  · have hrecord : recordAnomaly k (fetch (prependLog earlier s)) = prependLog earlier (recordAnomaly k (fetch s)) :=
      emit_prependLog earlier _ (fetch s)
    exact ⟨true, hrecord ▸ runCycle_anomaly hf' hd⟩

/-! ## The full run -/

theorem mapNext_next_iff {α β : Type} {f : α → β} {o : Host.Outcome α Fault Refusal} {b : β} :
    mapNext f o = .next b ↔ ∃ a, o = .next a ∧ f a = b :=
  ⟨mapNext_next, fun ⟨_, ho, hb⟩ => ho ▸ congrArg Host.Outcome.next hb⟩

/-- There is no fault, so what has no next state is refused (60_exceptions.md R98). -/
theorem refused_iff_no_next {α : Type} (o : Host.Outcome α Fault Refusal) :
    (∃ r, o = .refused r) ↔ ¬∃ a, o = .next a := by
  cases o with
  | next a => simp
  | fault e => cases e
  | refused r => simp

theorem runLoop_succ_next_iff {k : Nat} {s u : State} : runLoop (k + 1) s = .next u ↔
    runCycle s = .next (u, false) ∨ ∃ t, runCycle s = .next (t, true) ∧ runLoop k t = .next u := by
  rw [runLoop]
  split
  next t h => simp [h]
  next t h => simp [h]
  next e h => simp [h]
  next r h => simp [h]

theorem cyclesUntilFalse_iff {s u : State} : CyclesUntilFalse s u ↔
    runCycle s = .next (u, false) ∨ ∃ t, runCycle s = .next (t, true) ∧ CyclesUntilFalse t u := by
  constructor
  · rintro (h | ⟨h, hmore⟩)
    · exact .inl h
    · exact .inr ⟨_, h, hmore⟩
  · rintro (h | ⟨t, h, hmore⟩)
    · exact .last h
    · exact .more h hmore

/-- A loop with more calls than cells left above PC is never cut short: each call but the last takes one cell
(43_cycle_sequencer.md R91). -/
theorem runLoop_next_iff_cyclesUntilFalse {k : Nat} {s u : State} (hk : s.cfg.capacity - s.pc < k) :
    runLoop k s = .next u ↔ CyclesUntilFalse s u := by
  induction k generalizing s with
  | zero => exact absurd hk (Nat.not_lt_zero _)
  | succ k ih =>
    rw [runLoop_succ_next_iff, cyclesUntilFalse_iff]
    refine or_congr_right (exists_congr fun t => and_congr_right fun h => ih ?_)
    obtain ⟨⟨-, -, hlt⟩, hpc, hcfg⟩ := runCycle_true h
    rw [hpc, hcfg]
    omega

theorem stopped_of_cyclesUntilFalse {s u : State} (h : CyclesUntilFalse s u) : Stopped u := by
  induction h with
  | last h => exact runCycle_false_stopped h
  | more _ _ ih => exact ih

/-- The full run is the unbounded repetition of cycles between the two banners (43_cycle_sequencer.md R90). -/
theorem runProgram_next_iff {s t : State} {l : List Event} (hr : s.refused = none) :
    runProgram s = .next (t, l) ↔
      ∃ u, CyclesUntilFalse { s with log := [.runStart] } u ∧ t = u.emit .runEnd ∧ l = t.log := by
  rw [runProgram, unlessRefused_none hr, mapNext_next_iff]
  refine exists_congr fun u => and_congr (runLoop_next_iff_cyclesUntilFalse (Nat.lt_succ_self _)) ?_
  constructor
  · intro h
    cases h
    exact ⟨rfl, rfl⟩
  · rintro ⟨rfl, rfl⟩
    rfl

/-- A run has an answer exactly when the repetition of cycles ends. -/
theorem runProgram_answers_iff {s : State} (hr : s.refused = none) :
    (∃ q, runProgram s = .next q) ↔ ∃ u, CyclesUntilFalse { s with log := [.runStart] } u := by
  constructor
  · rintro ⟨⟨t, l⟩, h⟩
    obtain ⟨u, hu, -⟩ := (runProgram_next_iff hr).mp h
    exact ⟨u, hu⟩
  · rintro ⟨u, hu⟩
    exact ⟨_, (runProgram_next_iff hr).mpr ⟨u, hu, rfl, rfl⟩⟩

/-! ## The host ports of the sequencer -/

theorem hostStep_step {s : State} (hr : s.refused = none) :
    hostStep .step s = mapNext (fun q => (q.1, .bool q.2)) (runCycle s) := hostStep_of_unmarked hr _

theorem hostStep_run {s : State} (hr : s.refused = none) :
    hostStep .run s = mapNext (fun q => (q.1, .events q.2)) (runProgram s) := hostStep_of_unmarked hr _

/-! ## The status -/

theorem status_eq_ready_iff {s : State} : status s = .ready ↔ ¬Stopped s := by
  cases hh : s.halted <;> simp [status, Stopped, hh]

theorem stopped_of_status_ne_ready {s : State} (h : status s ≠ .ready) : Stopped s :=
  not_not.mp (mt status_eq_ready_iff.mpr h)

theorem status_of_running {s : State} (h : s.halted = false) :
    status s = if s.cfg.capacity ≤ s.pc then .outOfBounds else .ready := by
  simp [status, h]

/-! ## The statements -/

/-- Settles O28: fetch unfolds to its four transfers, and no tag is among what they read. -/
theorem fetchTransfersTheText : Obligations.FetchTransfersTheText := fun s =>
  ⟨fetch_eq s, fun cells => fetch_pc { s with mem := cells }, fetch_ignores_tags s⟩

/-- Settles O31: whitespace decodes to blank, and decode-execute does nothing for it or on a halted core. -/
theorem blankCellIsANoOp : Obligations.BlankCellIsANoOp := by
  refine ⟨fun s hf hw => ?cycle, fun s h => ?noOp, fun s hf => hf.2.1⟩
  case cycle => exact runCycle_blank hf (decode_of_whitespace _ hw)
  case noOp =>
    obtain hh | hw := h
    · exact decodeExecute_of_halted hh
    · exact decodeExecute_of_blank (decode_of_whitespace _ hw)

/-- Settles O34, by the equation of the cycle in each phase. -/
theorem cycleFollowsItsPhases : Obligations.CycleFollowsItsPhases := by
  intro s
  refine ⟨fun hm => ?marked, runCycle_of_stopped, fun hr hh hpc => ?fetching,
    fun hr => ⟨fun t b h => ?next, fun r h => ?refused⟩⟩
  case marked =>
    obtain ⟨r, hr⟩ := Option.ne_none_iff_exists'.mp hm
    exact ⟨_, runCycle_of_marked hr⟩
  case fetching =>
    obtain ⟨t, ht⟩ := decodeExecute_next (fetch s)
    have hcycle := runCycle_of_decodeExecute ⟨hr, hh, hpc⟩ ht
    refine ⟨t, ht, fun h => hcycle.trans (unlessRefused_none h _), fun h => ?_⟩
    obtain ⟨r, hm⟩ := Option.ne_none_iff_exists'.mp h
    exact ⟨_, hcycle.trans (unlessRefused_some hm _)⟩
  case next => rw [hostStep_step hr, h, mapNext]
  case refused => rw [hostStep_step hr, h, mapNext]

/-- Settles O37: of what a step can do, only one that appends an event fits, and that event is the one appended. -/
theorem eventsHoldFetchAddressAndText : Obligations.EventsHoldFetchAddressAndText := by
  intro s t e h hlog
  obtain ⟨-, ⟨-, rfl⟩ | ⟨-, hpc, hmar, -, -, -, -, -, -, ⟨-, rfl⟩ | ⟨e', hlog', hepc, hetext, -⟩⟩⟩ := step_cases h
  · simp at hlog
  · simp at hlog
  · obtain rfl : e' = e := by simpa [hlog'] using hlog
    exact ⟨by rw [hepc, hpc, Nat.add_sub_cancel], by rw [hepc, hmar], hetext⟩

/-- Settles O40: a step only appends, and nothing it does reads the log. -/
theorem stepsAccumulateEvents : Obligations.StepsAccumulateEvents :=
  ⟨fun _ _ => step_extends_log, fun _ _ earlier => step_prependLog earlier⟩

/-- Settles O44: with its bound on the calls, the loop of a run is the repetition of cycles with no bound. -/
theorem runRepeatsCyclesUntilFalse : Obligations.RunRepeatsCyclesUntilFalse := by
  intro s hr
  refine ⟨fun t l => runProgram_next_iff hr, ?refusal, runProgram_of_stopped hr, fun t l h => ?next, fun r h => ?refused,
    fun t op r h hrun hreset => ?others⟩
  case refusal => rw [refused_iff_no_next, runProgram_answers_iff hr]
  case next => rw [hostStep_run hr, h, mapNext]
  case refused => rw [hostStep_run hr, h, mapNext]
  case others =>
    obtain ⟨-, ⟨hop, -⟩ | ⟨-, hcycle⟩ | ⟨hop, -⟩ | ⟨m, rfl⟩⟩ := hostStep_cases h
    · exact absurd hop hreset
    · exact step_extends_log (step_next_iff.mpr hcycle)
    · exact absurd hop hrun
    · exact ⟨[], (List.append_nil _).symm⟩

/-- Settles O46: Ready is exactly not stopped; a cycle moves PC by one cell, a run ends stopped, and the other
operations change only memory. -/
theorem statusTransitions : Obligations.StatusTransitions := by
  intro s hr
  refine ⟨fun hready => ?ready, fun h => ?terminal, fun t l h => ⟨?runEnds, fun hs => ?runStays⟩, ?reset,
    fun t op r h hstep hrun hreset => ?others⟩
  case ready =>
    have hf : Fetches s := fetches_of_not_stopped hr (status_eq_ready_iff.mp hready)
    refine ⟨fun hd => ⟨_, runCycle_instr hf hd (exec_hlt (fetch s)), status_of_halted rfl⟩, fun hlt href => ?_,
      fun r => runCycle_refused hf⟩
    obtain ⟨t, hcycle, hrunning⟩ := runCycle_continues hf hlt href
    obtain ⟨⟨-, -, hinside⟩, hpc, hcfg⟩ := runCycle_true hcycle
    refine ⟨t, hcycle, fun hlast => ?_, fun hmore => ?_⟩
    · rw [status_of_running hrunning, if_pos (by rw [hcfg, hpc]; omega)]
    · rw [status_of_running hrunning, if_neg (by rw [hcfg, hpc]; omega)]
  case terminal => exact runCycle_of_stopped hr (stopped_of_status_ne_ready h)
  case runEnds =>
    obtain ⟨u, hu, rfl, -⟩ := (runProgram_next_iff hr).mp h
    have hstopped : Stopped u := stopped_of_cyclesUntilFalse hu
    exact fun hready => status_eq_ready_iff.mp hready hstopped
  case runStays =>
    rw [runProgram_of_stopped hr (stopped_of_status_ne_ready hs)] at h
    cases h
    rfl
  case reset =>
    refine ⟨hostReset s, hostStep_of_unmarked hr _, (status_of_running rfl).trans ?_⟩
    simp only [hostReset_cfg, hostReset_pc, ← Nat.not_lt, ite_not]
  case others =>
    obtain ⟨-, ⟨hop, -⟩ | ⟨hop, -⟩ | ⟨hop, -⟩ | ⟨m, rfl⟩⟩ := hostStep_cases h
    · exact absurd hop hreset
    · exact absurd hop hstep
    · exact absurd hop hrun
    · rfl

end Sys2Proof.Proofs
end

section
/-!
PROOFS. Reset (70_reset_and_hazards.md): the reset core and the constructed core are one, and execution after a reset
starts at address 0.
-/

namespace Sys2Proof.Proofs

open Sys2Proof Sys2Proof.Machine

/-! ## The reset core -/

/-- Reset leaves an unmarked core as constructed, with its own count of draws (70_reset_and_hazards.md R115). -/
theorem hostReset_eq_construct {s : State} (hr : s.refused = none) :
    hostReset s = { State.construct s.cfg with draws := s.draws } := by
  have hmark : hostReset s = { State.construct s.cfg with draws := s.draws, refused := s.refused } := rfl
  rw [hmark, hr]
  rfl

/-- Only cycles use draws: no other operation lets the host see their count. -/
theorem reply_ignores_draws {op : HostOp} {s : State} (hr : s.refused = none) (hstep : op ≠ .step) (hrun : op ≠ .run)
    (n : Nat) :
    mapNext Prod.snd (hostStep op { s with draws := n }) = mapNext Prod.snd (hostStep op s) := by
  have hr' : State.refused { s with draws := n } = none := hr
  rw [hostStep_of_unmarked hr', hostStep_of_unmarked hr]
  cases op with
  | step => exact absurd rfl hstep
  | run => exact absurd rfl hrun
  | reset | setInstruction | setData | clear => rfl
  | getValue | getInstruction | isInstructionAddress | dump => rfl
  | snapshot | readHalted | readLog | status => rfl

/-! ## The step that fetches a placed text -/

/-- A step that fetches a text which is not refused answers, with that text in IR and PC one past it
(43_cycle_sequencer.md R83, R88). -/
theorem step_fetches {s : State} (hf : Fetches s) (href : ∀ r, decodedAt s.pc s ≠ .refused r) :
    ∃ t, step s = .next t ∧ t.mar = s.pc ∧ t.ir = fetchText s.pc s ∧ t.pc = s.pc + 1 := by
  obtain ⟨t, ht⟩ : ∃ t, step s = .next t := by
    by_cases hlt : decodedAt s.pc s = .instr .hlt
    · exact ⟨_, step_of_instr hf hlt (exec_hlt (fetch s))⟩
    · obtain ⟨t, hcycle, -⟩ := runCycle_continues hf hlt href
      exact ⟨t, step_next_iff.mpr ⟨true, hcycle⟩⟩
  obtain ⟨-, ⟨hstopped, -⟩ | ⟨-, hpc, hmar, hir, -⟩⟩ := step_cases ht
  · exact absurd hstopped hf.not_stopped
  · exact ⟨t, ht, hmar, hir, hpc⟩

theorem fetches_setInstruction {a : Int} {txt : Text} {s : State} : Fetches (setInstruction a txt s) ↔ Fetches s := by
  simp only [Fetches, setInstruction_refused, setInstruction_halted, setInstruction_pc, setInstruction_cfg]

/-- A text placed at PC is the one the next step fetches (20_memory.md R35, 43_cycle_sequencer.md R83). -/
theorem step_fetches_placed_text {s : State} {txt : Text} (hf : Fetches s)
    (href : ∀ r, decode s.cfg.extraTokens txt ≠ .refused r) :
    ∃ t, step (setInstruction s.pc txt s) = .next t ∧ t.mar = s.pc ∧ t.ir = txt ∧ t.pc = s.pc + 1 := by
  have hpc : (setInstruction s.pc txt s).pc = s.pc := setInstruction_pc s.pc txt s
  have htext : fetchText s.pc (setInstruction s.pc txt s) = txt :=
    fetchText_setInstruction_same txt ⟨Int.natCast_nonneg _, Int.ofNat_lt.mpr hf.2.2⟩
  have hdecoded : decodedAt s.pc (setInstruction s.pc txt s) = decode s.cfg.extraTokens txt := by
    rw [decodedAt, htext, setInstruction_cfg]
  obtain ⟨t, ht, hmar, hir, hnext⟩ := step_fetches (fetches_setInstruction.mpr hf) (by rwa [hpc, hdecoded])
  rw [hpc] at hmar hir hnext
  exact ⟨t, ht, hmar, hir.trans htext, hnext⟩

/-! ## The statements -/

/-- Settles O51: the reset core is the constructed one but for the draws, which no read or load shows. -/
theorem freshCoreEqualsResetCore : Obligations.FreshCoreEqualsResetCore := by
  intro s hr
  rw [hostReset_eq_construct hr]
  exact ⟨rfl, rfl, fun op hstep hrun => reply_ignores_draws (s := State.construct s.cfg) rfl hstep hrun s.draws⟩

/-- Settles O52: the reset core runs with PC 0, so its first step fetches cell 0, where the text was placed. -/
theorem resetStartsAtAddressZero : Obligations.ResetStartsAtAddressZero := by
  intro s hr
  have hstatus : status (hostReset s) = if s.cfg.capacity ≤ 0 then .outOfBounds else .ready := status_of_running rfl
  refine ⟨rfl, fun hN => ?ready, fun hN => ?outOfBounds, fun txt hN href => ?firstStep⟩
  case ready => rw [hstatus, if_neg (Nat.not_le.mpr hN)]
  case outOfBounds => rw [hstatus, if_pos hN.le]
  case firstStep =>
    have hf : Fetches (hostReset s) := ⟨hr, rfl, hN⟩
    exact step_fetches_placed_text hf href

end Sys2Proof.Proofs
end

section
/-!
PROOFS. Encoding (30_encoding.md): the tokens of a text, the value of an operand token, which texts decode to what,
and that the canonical texts decode to their instructions.
-/

namespace Sys2Proof.Proofs

open Sys2Proof Sys2Proof.Machine

/-! ## Characters -/

theorem isWhitespace_iff_mem (c : Char) : isWhitespace c = true ↔ c ∈ [' ', '\t', '\n', '\x0b', '\x0c', '\r'] := by
  simp [isWhitespace, ← Char.toNat_inj]
  omega

theorem isAdmitted_iff (c : Char) : isAdmitted c = true ↔
    (0x20 ≤ c.toNat ∧ c.toNat ≤ 0x7E) ∨ c ∈ ['\t', '\n', '\x0b', '\x0c', '\r'] := by
  simp [isAdmitted, ← Char.toNat_inj]
  omega

theorem isDigit_iff (c : Char) : isDigit c = true ↔
    ∃ k : Nat, ['0', '1', '2', '3', '4', '5', '6', '7', '8', '9'][k]? = some c ∧ digitValue c = k := by
  have hdigits : ∀ k < 10, ['0', '1', '2', '3', '4', '5', '6', '7', '8', '9'][k]? = some (digitChar k) := by decide
  constructor
  · intro h
    have hrange : 0x30 ≤ c.toNat ∧ c.toNat ≤ 0x39 := by simpa [isDigit] using h
    have hchar : digitChar (digitValue c) = c := by
      rw [digitChar, digitValue, Nat.add_sub_cancel' hrange.1, Char.ofNat_toNat]
    have hlt : digitValue c < 10 := by
      rw [digitValue]
      omega
    exact ⟨digitValue c, by rw [hdigits _ hlt, hchar], rfl⟩
  · rintro ⟨k, hk, -⟩
    have hlt : k < 10 := (List.getElem?_eq_some_iff.mp hk).1
    obtain rfl := Option.some.inj ((hdigits k hlt).symm.trans hk)
    exact Laws.isDigit_digitChar hlt

/-! ## Tokens -/

/-- A piece of text that can be a token: not empty, and without whitespace (30_encoding.md R58). -/
def IsWord (w : Text) : Prop := w ≠ [] ∧ w.all (fun c => !isWhitespace c) = true

theorem closeToken_of_ne_nil {w : Text} (h : w ≠ []) : closeToken w = [w] := if_neg h

theorem flatten_closeToken (w : Text) : (closeToken w).flatten = w := by
  by_cases h : w = []
  · rw [h]; rfl
  · rw [closeToken_of_ne_nil h, List.flatten_singleton]

/-- Words each followed by whitespace are its tokens, in front of those of the rest of the text. -/
theorem tokensFrom_spaced_words {words : List (Text × Text)} (rest : Text)
    (h : ∀ p ∈ words, p.1 ≠ [] ∧ p.1.all (fun c => !isWhitespace c) = true ∧ p.2 ≠ [] ∧
      p.2.all isWhitespace = true) :
    tokensFrom [] (words.flatMap (fun p => p.1 ++ p.2) ++ rest) = words.map Prod.fst ++ tokensFrom [] rest := by
  induction words with
  | nil => rfl
  | cons p words ih =>
    obtain ⟨hne, hword, hgapne, hgap⟩ := h p List.mem_cons_self
    rw [List.flatMap_cons, List.append_assoc, List.append_assoc, Laws.tokensFrom_word [] p.1 _ hword, List.nil_append,
      Laws.tokensFrom_close _ hne hgapne hgap, ih fun q hq => h q (List.mem_cons_of_mem p hq)]
    rfl

/-- A last word, with no whitespace after it, is a token unless it is empty. -/
theorem tokensFrom_last_word {w : Text} (h : w.all (fun c => !isWhitespace c) = true) :
    tokensFrom [] w = closeToken w := by
  have hword := Laws.tokensFrom_word [] w [] h
  rwa [List.append_nil, List.nil_append, tokensFrom] at hword

theorem isWord_of_mem_closeToken {w v : Text} (hw : w.all (fun c => !isWhitespace c) = true)
    (hv : v ∈ closeToken w) : IsWord v := by
  by_cases hne : w = []
  · simp [closeToken, hne] at hv
  · rw [closeToken_of_ne_nil hne] at hv
    obtain rfl := List.mem_singleton.mp hv
    exact ⟨hne, hw⟩

theorem isWord_of_mem_tokensFrom {s w v : Text} (hw : w.all (fun c => !isWhitespace c) = true)
    (hv : v ∈ tokensFrom w s) : IsWord v := by
  induction s generalizing w with
  | nil => exact isWord_of_mem_closeToken hw hv
  | cons c s ih =>
    unfold tokensFrom at hv
    split at hv
    next =>
      obtain hv | hv := List.mem_append.mp hv
      · exact isWord_of_mem_closeToken hw hv
      · exact ih rfl hv
    next hc =>
      have hwc : (w ++ [c]).all (fun c => !isWhitespace c) = true := by simp [List.all_append, hw, hc]
      exact ih hwc hv

/-- No character but whitespace is lost. -/
theorem flatten_tokensFrom (w s : Text) :
    (tokensFrom w s).flatten = w ++ s.filter (fun c => !isWhitespace c) := by
  induction s generalizing w with
  | nil => rw [tokensFrom, flatten_closeToken, List.filter_nil, List.append_nil]
  | cons c s ih =>
    unfold tokensFrom
    split
    next hc => simp [flatten_closeToken, ih, hc]
    next hc => simp [ih, hc]

/-- A text has no token exactly when it is whitespace (30_encoding.md R56). -/
theorem tokens_eq_nil_iff {txt : Text} : tokens txt = [] ↔ txt.all isWhitespace = true := by
  constructor
  · intro h
    have hkept : txt.filter (fun c => !isWhitespace c) = [] :=
      (flatten_tokensFrom [] txt).symm.trans (congrArg List.flatten h)
    simpa [List.filter_eq_nil_iff] using hkept
  · intro h
    have hgap := Laws.tokensFrom_gap txt [] h
    rwa [List.append_nil] at hgap

/-! ## Operand tokens -/

/-- The digits of a numeral, weighted by their places (30_encoding.md R61). -/
theorem digitsValue_eq_sum (ds : Text) : digitsValue ds = ((List.range ds.length).map
    fun i => digitValue (ds.getD i '0') * 10 ^ (ds.length - 1 - i)).sum := by
  induction ds using List.reverseRecOn with
  | nil => rfl
  | append_singleton ds c ih =>
    have hplaces : ∀ i ∈ List.range ds.length,
        digitValue ((ds ++ [c]).getD i '0') * 10 ^ (ds.length - i) =
          10 * (digitValue (ds.getD i '0') * 10 ^ (ds.length - 1 - i)) := by
      intro i hi
      have hlt : i < ds.length := List.mem_range.mp hi
      have hexp : ds.length - i = ds.length - 1 - i + 1 := by omega
      rw [List.getD_append _ _ _ _ hlt, hexp, pow_succ]
      ring
    have hunit : digitValue ((ds ++ [c]).getD ds.length '0') * 10 ^ (ds.length - ds.length) = digitValue c := by simp
    rw [Laws.digitsValue_append, ih, List.length_append, List.length_singleton, List.range_succ, Nat.add_sub_cancel,
      List.map_append, List.sum_append, List.map_congr_left hplaces, List.sum_map_mul_left, List.map_singleton,
      List.sum_singleton, hunit]

section
variable {ds : Text} (hne : ds ≠ []) (hd : ds.all isDigit = true)
include hne hd

theorem digits_read : isCanonical ds = true ∧ parseInt ds = (digitsValue ds : Int) := by
  have hu : unsigned ds = ds := Laws.unsigned_of_digits hd
  exact ⟨by simp [isCanonical, hu, hne, hd], by rw [parseInt, if_neg (Laws.head_of_digits hd), hu]⟩

theorem plus_digits_read : isCanonical ('+' :: ds) = true ∧ parseInt ('+' :: ds) = (digitsValue ds : Int) := by
  have hu : unsigned ('+' :: ds) = ds := rfl
  exact ⟨by simp [isCanonical, hu, hne, hd], by simp [parseInt, hu]⟩

theorem minus_digits_read : isCanonical ('-' :: ds) = true ∧ parseInt ('-' :: ds) = -(digitsValue ds : Int) := by
  have hu : unsigned ('-' :: ds) = ds := rfl
  exact ⟨by simp [isCanonical, hu, hne, hd], by simp [parseInt, hu]⟩

end

/-- A token is what follows its sign, behind a sign or no sign. -/
theorem eq_unsigned_or_signed (t : Text) : t = unsigned t ∨ t = '+' :: unsigned t ∨ t = '-' :: unsigned t := by
  cases t with
  | nil => exact .inl rfl
  | cons c cs =>
    by_cases hp : c = '+'
    · subst hp; exact .inr (.inl rfl)
    by_cases hm : c = '-'
    · subst hm; exact .inr (.inr rfl)
    exact .inl (by simp [unsigned, hp, hm])

/-- What follows the sign is the whole of a token whose first character is no sign. -/
theorem unsigned_of_form {t ds : Text} (hplus : '+' ∉ ds) (hminus : '-' ∉ ds)
    (h : t = ds ∨ t = '+' :: ds ∨ t = '-' :: ds) : unsigned t = ds := by
  obtain rfl | rfl | rfl := h
  · cases t with
    | nil => rfl
    | cons c cs =>
      have hc : ¬(c = '+' ∨ c = '-') := by
        rintro (rfl | rfl)
        · exact hplus List.mem_cons_self
        · exact hminus List.mem_cons_self
      exact if_neg hc
  · rfl
  · rfl

/-- The canonical tokens are the numerals with at most one sign (30_encoding.md R61). -/
theorem isCanonical_iff (t : Text) : isCanonical t = true ↔
    ∃ ds, ds ≠ [] ∧ ds.all isDigit = true ∧ (t = ds ∨ t = '+' :: ds ∨ t = '-' :: ds) := by
  constructor
  · intro h
    simp only [isCanonical, Bool.and_eq_true, bne_iff_ne] at h
    exact ⟨unsigned t, h.1, h.2, eq_unsigned_or_signed t⟩
  · rintro ⟨ds, hne, hd, rfl | rfl | rfl⟩
    · exact (digits_read hne hd).1
    · exact (plus_digits_read hne hd).1
    · exact (minus_digits_read hne hd).1

/-- The ambiguous tokens are, after at most one sign, digits and underscores, at least one of each
(30_encoding.md R62): an underscore alone already keeps a token from being canonical. -/
theorem isAmbiguous_iff (t : Text) : isAmbiguous t = true ↔
    ∃ ds, '_' ∈ ds ∧ ds.any isDigit = true ∧ (∀ c ∈ ds, isDigit c = true ∨ c = '_') ∧
      (t = ds ∨ t = '+' :: ds ∨ t = '-' :: ds) := by
  have hsplit : isAmbiguous t = true ↔ isCanonical t = false ∧ (∀ c ∈ unsigned t, isDigit c = true ∨ c = '_') ∧
      '_' ∈ unsigned t ∧ (unsigned t).any isDigit = true := by
    simp [isAmbiguous, and_assoc]
  rw [hsplit]
  constructor
  · rintro ⟨-, hchars, hunderscore, hdigit⟩
    exact ⟨unsigned t, hunderscore, hdigit, hchars, eq_unsigned_or_signed t⟩
  · rintro ⟨ds, hunderscore, hdigit, hchars, hform⟩
    have hu : unsigned t = ds := unsigned_of_form (fun h => absurd (hchars _ h) (by decide))
      (fun h => absurd (hchars _ h) (by decide)) hform
    rw [hu]
    refine ⟨?_, hchars, hunderscore, hdigit⟩
    rw [isCanonical, hu, Bool.and_eq_false_iff]
    exact .inr (List.all_eq_false.mpr ⟨'_', hunderscore, by decide⟩)

/-! ## The canonical text -/

/-- The digits of `n` in front of `acc` are read as `n` and then `acc`. -/
theorem foldl_decimalFrom {fuel n : Nat} (acc : Text) (h : n < fuel) :
    (decimalFrom fuel n acc).foldl (fun v c => 10 * v + digitValue c) 0 =
      acc.foldl (fun v c => 10 * v + digitValue c) n := by
  induction fuel generalizing n acc with
  | zero => exact absurd h (Nat.not_lt_zero n)
  | succ fuel ih =>
    unfold decimalFrom
    split
    next hn => rw [List.foldl_cons, Laws.digitValue_digitChar hn, Nat.mul_zero, Nat.zero_add]
    next hn =>
      rw [ih _ (by omega), List.foldl_cons, Laws.digitValue_digitChar (Nat.mod_lt n (by omega)), Nat.div_add_mod]

theorem digitsValue_decimal (n : Nat) : digitsValue (decimal n) = n := foldl_decimalFrom [] (Nat.lt_succ_self n)

theorem decimalFrom_ne_nil {fuel : Nat} (n : Nat) {acc : Text} (h : fuel ≠ 0 ∨ acc ≠ []) :
    decimalFrom fuel n acc ≠ [] := by
  induction fuel generalizing n acc with
  | zero => exact h.resolve_left (absurd rfl)
  | succ fuel ih =>
    unfold decimalFrom
    split
    next => exact List.cons_ne_nil _ _
    next => exact ih _ (.inr (List.cons_ne_nil _ _))

theorem decimal_ne_nil (n : Nat) : decimal n ≠ [] := decimalFrom_ne_nil n (.inl (Nat.succ_ne_zero n))

/-- The numeral of an integer is canonical, and its value is that integer (30_encoding.md R61, R69). -/
theorem encodeInt_read (a : Int) : isCanonical (encodeInt a) = true ∧ parseInt (encodeInt a) = a := by
  unfold encodeInt
  split
  next h =>
    obtain ⟨hc, hv⟩ := minus_digits_read (decimal_ne_nil a.natAbs) (Laws.decimal_digits a.natAbs)
    exact ⟨hc, by rw [hv, digitsValue_decimal]; omega⟩
  next h =>
    obtain ⟨hc, hv⟩ := digits_read (decimal_ne_nil a.natAbs) (Laws.decimal_digits a.natAbs)
    exact ⟨hc, by rw [hv, digitsValue_decimal]; omega⟩

theorem decimal_no_whitespace (n : Nat) : (decimal n).all (fun c => !isWhitespace c) = true :=
  List.all_eq_true.mpr fun c hc => by
    rw [Laws.isWhitespace_of_isDigit (List.all_eq_true.mp (Laws.decimal_digits n) c hc)]
    rfl

theorem encodeInt_isWord (a : Int) : IsWord (encodeInt a) := by
  unfold encodeInt
  split
  next => exact ⟨List.cons_ne_nil _ _, by rw [List.all_cons, decimal_no_whitespace]; rfl⟩
  next => exact ⟨decimal_ne_nil _, decimal_no_whitespace _⟩

/-- The canonical text of an operand instruction has two tokens, its opcode and its operand (30_encoding.md R57). -/
theorem tokens_encodeT1 {op : Text} (h : IsWord op) (a : Int) : tokens (encodeT1 op a) = [op, encodeInt a] := by
  obtain ⟨hne, hword⟩ := h
  have hspace : isWhitespace ' ' = true := by decide
  rw [encodeT1, tokens, Laws.tokensFrom_word [] op _ hword, List.nil_append, tokensFrom, if_pos hspace,
    tokensFrom_last_word (encodeInt_isWord a).2, closeToken_of_ne_nil hne, closeToken_of_ne_nil (encodeInt_isWord a).1]
  rfl

/-- The canonical text of an operand instruction decodes by its opcode alone. -/
theorem decode_encodeT1 (x : ExtraTokens) {op : Text} (hword : IsWord op) (hadmitted : op.all isAdmitted = true)
    (hop : op ≠ opHLT) (a : Int) : decode x (encodeT1 op a) = decodeOperandOpcode op a := by
  have hspells : Spells x (encodeT1 op a) op [encodeInt a] :=
    ⟨Laws.encodeT1_admitted hadmitted a, tokens_encodeT1 hword a, fun _ => by simp [arity, hop]⟩
  obtain ⟨hc, hv⟩ := encodeInt_read a
  rw [decode_of_canonical_operand hspells hc hop, hv]

theorem decode_encode (x : ExtraTokens) (i : Instr) : decode x (encode i) = .instr i := by
  unfold encode
  cases i with
  | load a => exact decode_encodeT1 x (op := opLOAD) ⟨by decide, by decide⟩ (by decide) (by decide) a
  | store a => exact decode_encodeT1 x (op := opSTORE) ⟨by decide, by decide⟩ (by decide) (by decide) a
  | add a => exact decode_encodeT1 x (op := opADD) ⟨by decide, by decide⟩ (by decide) (by decide) a
  | sub a => exact decode_encodeT1 x (op := opSUB) ⟨by decide, by decide⟩ (by decide) (by decide) a
  | hlt => exact decode_of_spells_hlt (rest := []) ⟨by decide, by decide, fun _ => Nat.zero_le _⟩

theorem encode_admitted (i : Instr) : (encode i).all isAdmitted = true := by
  cases i with
  | load a => exact Laws.EncodedAlphabet.load a
  | store a => exact Laws.EncodedAlphabet.store a
  | add a => exact Laws.EncodedAlphabet.add a
  | sub a => exact Laws.EncodedAlphabet.sub a
  | hlt => exact Laws.EncodedAlphabet.hlt

/-! ## Numbered words (log entry 7) -/

theorem toNat_of_isAdmitted {c : Char} (h : isAdmitted c = true) : 0 < c.toNat ∧ c.toNat < 256 := by
  simp [isAdmitted] at h
  omega

theorem wordOfText_lt {txt : Text} (h : txt.all isAdmitted = true) : wordOfText txt < 2 ^ (8 * txt.length) := by
  induction txt with
  | nil => decide
  | cons c txt ih =>
    obtain ⟨hc, htxt⟩ := Bool.and_eq_true_iff.mp (List.all_cons ▸ h)
    have hbyte := (toNat_of_isAdmitted hc).2
    have hrest := ih htxt
    have hpow : 2 ^ (8 * (c :: txt).length) = 256 * 2 ^ (8 * txt.length) := by
      rw [List.length_cons, Nat.mul_succ, pow_add, Nat.mul_comm]
      rfl
    rw [wordOfText, hpow]
    omega

theorem textOfBytes_wordOfText {txt : Text} (h : txt.all isAdmitted = true) :
    textOfBytes txt.length (wordOfText txt) = txt := by
  induction txt with
  | nil => rfl
  | cons c txt ih =>
    obtain ⟨hc, htxt⟩ := Bool.and_eq_true_iff.mp (List.all_cons ▸ h)
    obtain ⟨hpos, hbyte⟩ := toNat_of_isAdmitted hc
    have hlow : (c.toNat + 256 * wordOfText txt) % 256 = c.toNat := by omega
    have hhigh : (c.toNat + 256 * wordOfText txt) / 256 = wordOfText txt := by omega
    rw [List.length_cons, textOfBytes, wordOfText, if_neg (by omega), hlow, hhigh, Char.ofNat_toNat, ih htxt]

/-- The number of an admitted text stands for that text. -/
theorem textOfWord_wordOfText {txt : Text} (h : txt.all isAdmitted = true) :
    textOfWord (8 * txt.length) (wordOfText txt) = txt := by
  have hbytes : (8 * txt.length + 7) / 8 = txt.length := by omega
  rw [textOfWord, Nat.mod_eq_of_lt (wordOfText_lt h), hbytes, textOfBytes_wordOfText h]

/-! ## Which texts decode to what -/

theorem decodeOperandOpcode_cases (op : Text) (a : Int) :
    (∃ i, i ≠ .hlt ∧ decodeOperandOpcode op a = .instr i) ∨
      decodeOperandOpcode op a = .anomaly .unknownInstruction := by
  unfold decodeOperandOpcode
  split_ifs
  · exact .inl ⟨_, by simp, rfl⟩
  · exact .inl ⟨_, by simp, rfl⟩
  · exact .inl ⟨_, by simp, rfl⟩
  · exact .inl ⟨_, by simp, rfl⟩
  · exact .inr rfl

/-- All that the tests on an operand token can answer (30_encoding.md R64). -/
theorem decodeOperand_cons_cases (op t : Text) (more : List Text) :
    (isAmbiguous t = true ∧ decodeOperand op (t :: more) = .refused .ambiguousOperand) ∨
    (isAmbiguous t = false ∧ isCanonical t = false ∧ decodeOperand op (t :: more) = .anomaly .invalidOperand) ∨
    (isAmbiguous t = false ∧ isCanonical t = true ∧
      decodeOperand op (t :: more) = decodeOperandOpcode op (parseInt t) ∧
      ((∃ i, i ≠ .hlt ∧ decodeOperand op (t :: more) = .instr i) ∨
        decodeOperand op (t :: more) = .anomaly .unknownInstruction)) := by
  by_cases hc : isCanonical t = true
  · have ha := Laws.not_ambiguous_of_canonical hc
    have h : decodeOperand op (t :: more) = decodeOperandOpcode op (parseInt t) := by simp [decodeOperand, ha, hc]
    exact .inr (.inr ⟨ha, hc, h, h ▸ decodeOperandOpcode_cases op (parseInt t)⟩)
  · by_cases ha : isAmbiguous t = true
    · exact .inl ⟨ha, by simp [decodeOperand, ha]⟩
    · exact .inr (.inl ⟨by simpa using ha, by simpa using hc, by simp [decodeOperand, ha, hc]⟩)

/-- What the tests after the spelling answer is no blank, no HLT and neither of the refusals made before them. -/
theorem decodeOperand_answers (op : Text) (rest : List Text) :
    decodeOperand op rest ≠ .blank ∧ decodeOperand op rest ≠ .refused .nonAsciiText ∧
      decodeOperand op rest ≠ .refused .extraTokens ∧ decodeOperand op rest ≠ .instr .hlt := by
  cases rest with
  | nil => simp [decodeOperand]
  | cons t more =>
    obtain ⟨-, h⟩ | ⟨-, -, h⟩ | ⟨-, -, -, ⟨i, hi, h⟩ | h⟩ := decodeOperand_cons_cases op t more
    · simp [h]
    · simp [h]
    · simp [h, hi]
    · simp [h]

theorem decode_of_spells_answers {x : ExtraTokens} {txt op : Text} {rest : List Text} (h : Spells x txt op rest) :
    decode x txt ≠ .blank ∧ decode x txt ≠ .refused .nonAsciiText ∧ decode x txt ≠ .refused .extraTokens := by
  rw [Laws.decode_of_spells h]
  split
  next => simp
  next =>
    obtain ⟨hblank, hascii, hextra, -⟩ := decodeOperand_answers op rest
    exact ⟨hblank, hascii, hextra⟩

/-- An answer other than blank, NonAsciiText and ExtraTokens is the answer for a spelled opcode. -/
theorem decode_eq_iff_spells {x : ExtraTokens} {txt : Text} {d : Decoded} (hblank : d ≠ .blank)
    (hascii : d ≠ .refused .nonAsciiText) (hextra : d ≠ .refused .extraTokens) :
    decode x txt = d ↔
      ∃ op rest, Spells x txt op rest ∧ (if op = opHLT then .instr .hlt else decodeOperand op rest) = d := by
  constructor
  · rintro rfl
    obtain ⟨-, h⟩ | ⟨-, -, h⟩ | ⟨-, op, rest, -, -, -, h⟩ | ⟨op, rest, hs⟩ := Laws.decode_cases x txt
    · exact absurd h hascii
    · exact absurd h hblank
    · exact absurd h hextra
    · exact ⟨op, rest, hs, (Laws.decode_of_spells hs).symm⟩
  · rintro ⟨op, rest, hs, h⟩
    rw [Laws.decode_of_spells hs, h]

/-- The same for an answer other than HLT: it is one of the tests on the operand. -/
theorem decode_eq_iff_operand {x : ExtraTokens} {txt : Text} {d : Decoded} (hblank : d ≠ .blank)
    (hascii : d ≠ .refused .nonAsciiText) (hextra : d ≠ .refused .extraTokens) (hhlt : d ≠ .instr .hlt) :
    decode x txt = d ↔ ∃ op rest, Spells x txt op rest ∧ op ≠ opHLT ∧ decodeOperand op rest = d := by
  rw [decode_eq_iff_spells hblank hascii hextra]
  refine exists_congr fun op => exists_congr fun rest => and_congr_right fun _ => ?_
  by_cases hop : op = opHLT <;> simp [hop, hhlt.symm]

/-- An answer of the opcode map is given exactly for a canonical operand (30_encoding.md R64). -/
theorem decodeOperand_eq_opcode_iff {op : Text} {rest : List Text} {d : Decoded}
    (hmissing : d ≠ .anomaly .missingOperand) (hinvalid : d ≠ .anomaly .invalidOperand)
    (hambiguous : d ≠ .refused .ambiguousOperand) :
    decodeOperand op rest = d ↔
      ∃ t more, rest = t :: more ∧ isCanonical t = true ∧ decodeOperandOpcode op (parseInt t) = d := by
  cases rest with
  | nil => simp [decodeOperand, hmissing.symm]
  | cons t more =>
    obtain ⟨ha, h⟩ | ⟨-, hc, h⟩ | ⟨-, hc, h, -⟩ := decodeOperand_cons_cases op t more
    · have hc : isCanonical t ≠ true := fun hc => by simp [Laws.not_ambiguous_of_canonical hc] at ha
      simp [h, hc, hambiguous.symm]
    · simp [h, hc, hinvalid.symm]
    · simp [h, hc]

/-- An answer that the tests give exactly for an operand token of property `P` is decoded exactly where an opcode and
such a token are spelled. -/
theorem decode_eq_iff_operand_token {x : ExtraTokens} {txt : Text} {d : Decoded} {P : Text → Text → Prop}
    (hblank : d ≠ .blank) (hascii : d ≠ .refused .nonAsciiText) (hextra : d ≠ .refused .extraTokens)
    (hhlt : d ≠ .instr .hlt)
    (hP : ∀ op rest, decodeOperand op rest = d ↔ ∃ t more, rest = t :: more ∧ P op t) :
    decode x txt = d ↔ ∃ op t more, Spells x txt op (t :: more) ∧ op ≠ opHLT ∧ P op t := by
  rw [decode_eq_iff_operand hblank hascii hextra hhlt]
  constructor
  · rintro ⟨op, rest, hs, hop, h⟩
    obtain ⟨t, more, rfl, ht⟩ := (hP op rest).mp h
    exact ⟨op, t, more, hs, hop, ht⟩
  · rintro ⟨op, t, more, hs, hop, ht⟩
    exact ⟨op, t :: more, hs, hop, (hP op _).mpr ⟨t, more, rfl, ht⟩⟩

/-- An instruction with an operand is decoded exactly where its opcode and a canonical token of its operand are
spelled; `hmap` is what the opcode map says of the instruction. -/
theorem decode_eq_operand_instr_iff {x : ExtraTokens} {txt op : Text} {a : Int} {i : Instr}
    (hop : op ≠ opHLT) (hi : i ≠ .hlt)
    (hmap : ∀ op' b, decodeOperandOpcode op' b = .instr i ↔ op' = op ∧ b = a) :
    decode x txt = .instr i ↔ ∃ t rest, Spells x txt op (t :: rest) ∧ isCanonical t = true ∧ parseInt t = a := by
  rw [decode_eq_iff_operand_token (by simp) (by simp) (by simp) (by simpa using hi)
    fun _ _ => decodeOperand_eq_opcode_iff (by simp) (by simp) (by simp)]
  simp only [hmap]
  constructor
  · rintro ⟨_, t, more, hs, -, hc, rfl, ha⟩
    exact ⟨t, more, hs, hc, ha⟩
  · rintro ⟨t, more, hs, hc, ha⟩
    exact ⟨op, t, more, hs, hop, hc, rfl, ha⟩

/-! ## The opcode map -/

theorem decodeOperandOpcode_eq_load_iff (a : Int) (op : Text) (b : Int) :
    decodeOperandOpcode op b = .instr (.load a) ↔ op = opLOAD ∧ b = a := by
  unfold decodeOperandOpcode
  split_ifs <;> simp_all

theorem decodeOperandOpcode_eq_store_iff (a : Int) (op : Text) (b : Int) :
    decodeOperandOpcode op b = .instr (.store a) ↔ op = opSTORE ∧ b = a := by
  have hne : opLOAD ≠ opSTORE := by decide
  unfold decodeOperandOpcode
  split_ifs <;> simp_all

theorem decodeOperandOpcode_eq_add_iff (a : Int) (op : Text) (b : Int) :
    decodeOperandOpcode op b = .instr (.add a) ↔ op = opADD ∧ b = a := by
  have hne : opLOAD ≠ opADD ∧ opSTORE ≠ opADD := by decide
  unfold decodeOperandOpcode
  split_ifs <;> simp_all

theorem decodeOperandOpcode_eq_sub_iff (a : Int) (op : Text) (b : Int) :
    decodeOperandOpcode op b = .instr (.sub a) ↔ op = opSUB ∧ b = a := by
  have hne : opLOAD ≠ opSUB ∧ opSTORE ≠ opSUB ∧ opADD ≠ opSUB := by decide
  unfold decodeOperandOpcode
  split_ifs <;> simp_all

theorem decodeOperandOpcode_eq_unknown_iff (op : Text) (b : Int) :
    decodeOperandOpcode op b = .anomaly .unknownInstruction ↔
      op ≠ opLOAD ∧ op ≠ opSTORE ∧ op ≠ opADD ∧ op ≠ opSUB := by
  unfold decodeOperandOpcode
  split_ifs <;> simp_all

/-! ## The tests on the operand -/

theorem decodeOperand_eq_missing_iff {op : Text} {rest : List Text} :
    decodeOperand op rest = .anomaly .missingOperand ↔ rest = [] := by
  cases rest with
  | nil => simp [decodeOperand]
  | cons t more =>
    obtain ⟨-, h⟩ | ⟨-, -, h⟩ | ⟨-, -, -, ⟨i, -, h⟩ | h⟩ := decodeOperand_cons_cases op t more
    all_goals simp [h]

theorem decodeOperand_eq_invalid_iff {op : Text} {rest : List Text} :
    decodeOperand op rest = .anomaly .invalidOperand ↔
      ∃ t more, rest = t :: more ∧ isCanonical t = false ∧ isAmbiguous t = false := by
  cases rest with
  | nil => simp [decodeOperand]
  | cons t more =>
    obtain ⟨ha, h⟩ | ⟨ha, hc, h⟩ | ⟨-, hc, -, ⟨i, -, h⟩ | h⟩ := decodeOperand_cons_cases op t more
    · simp [h, ha]
    · simp [h, ha, hc]
    · simp [h, hc]
    · simp [h, hc]

theorem decodeOperand_eq_ambiguous_iff {op : Text} {rest : List Text} :
    decodeOperand op rest = .refused .ambiguousOperand ↔ ∃ t more, rest = t :: more ∧ isAmbiguous t = true := by
  cases rest with
  | nil => simp [decodeOperand]
  | cons t more =>
    obtain ⟨ha, h⟩ | ⟨ha, -, h⟩ | ⟨ha, -, -, ⟨i, -, h⟩ | h⟩ := decodeOperand_cons_cases op t more
    all_goals simp [h, ha]

/-! ## The statements -/

/-- Settles O1: the canonical text spells its opcode and the numeral of its operand, which is read as that operand. -/
theorem decodeReadsBackEncode : Obligations.DecodeReadsBackEncode := fun x i _ => decode_encode x i

/-- Settles O2: the number of a canonical text stands for that text, which is read back. -/
theorem tableWordReadsBack : Obligations.TableWordReadsBack := by
  intro i _
  have htext : textOfWord (encodeTableWord i).1 (encodeTableWord i).2 = encode i :=
    textOfWord_wordOfText (encode_admitted i)
  rw [decodeTableWord, htext, decode_encode]

/-- Settles O3, by the tokenizer's laws for a gap, a word and the end of a word. -/
theorem tokensAreTheSpacedWords : Obligations.TokensAreTheSpacedWords := by
  refine ⟨isWhitespace_iff_mem, fun lead last words hlead hlast hwords => ?spaced, fun s => ⟨fun w hw => ?word, ?kept⟩⟩
  case spaced =>
    rw [tokens, List.append_assoc, Laws.tokensFrom_gap lead _ hlead, tokensFrom_spaced_words last hwords,
      tokensFrom_last_word hlast]
    rfl
  case word => exact isWord_of_mem_tokensFrom rfl hw
  case kept => exact flatten_tokensFrom [] s

/-- Settles O4: the reader's value is the positional one, and the two classes of tokens are told by what follows the
sign. -/
theorem parseIntIsThePositionalValue : Obligations.ParseIntIsThePositionalValue := by
  refine ⟨fun ds hne hd => ?value, isDigit_iff, isCanonical_iff, isAmbiguous_iff⟩
  case value =>
    intro value
    have hvalue : value = digitsValue ds := (digitsValue_eq_sum ds).symm
    rw [hvalue]
    exact ⟨digits_read hne hd, plus_digits_read hne hd, minus_digits_read hne hd⟩

/-- Settles O5: each operand opcode by its row of the opcode map, HLT before the operand is looked at. -/
theorem decodeGivesAnInstructionExactlyWhenSpelled : Obligations.DecodeGivesAnInstructionExactlyWhenSpelled := by
  intro x txt a
  refine ⟨?load, ?store, ?add, ?sub, ?hlt⟩
  case load => exact decode_eq_operand_instr_iff (by decide) (by simp) (decodeOperandOpcode_eq_load_iff a)
  case store => exact decode_eq_operand_instr_iff (by decide) (by simp) (decodeOperandOpcode_eq_store_iff a)
  case add => exact decode_eq_operand_instr_iff (by decide) (by simp) (decodeOperandOpcode_eq_add_iff a)
  case sub => exact decode_eq_operand_instr_iff (by decide) (by simp) (decodeOperandOpcode_eq_sub_iff a)
  case hlt =>
    refine ⟨fun h => ?_, fun ⟨rest, hs⟩ => decode_of_spells_hlt hs⟩
    obtain ⟨op, rest, hs, h⟩ := (decode_eq_iff_spells (by simp) (by simp) (by simp)).mp h
    split at h
    next hop => exact ⟨rest, hop ▸ hs⟩
    next =>
      obtain ⟨-, -, -, hne⟩ := decodeOperand_answers op rest
      exact absurd h hne

/-- Settles O6: an anomaly is the answer of one of the tests on the operand or, for a canonical one, of the
opcode map. -/
theorem decodeGivesAnAnomalyExactlyWhen : Obligations.DecodeGivesAnAnomalyExactlyWhen := by
  intro x txt
  refine ⟨?missing, ?invalid, ?unknown⟩
  case missing =>
    rw [decode_eq_iff_operand (by simp) (by simp) (by simp) (by simp)]
    simp [decodeOperand_eq_missing_iff]
  case invalid =>
    exact decode_eq_iff_operand_token (by simp) (by simp) (by simp) (by simp)
      fun _ _ => decodeOperand_eq_invalid_iff
  case unknown =>
    rw [decode_eq_iff_operand_token (by simp) (by simp) (by simp) (by simp)
      fun _ _ => decodeOperand_eq_opcode_iff (by simp) (by simp) (by simp)]
    simp only [decodeOperandOpcode_eq_unknown_iff, UnknownOpcode]
    refine exists_congr fun op => exists_congr fun t => exists_congr fun more => and_congr_right fun _ => ?_
    tauto

/-- Settles O7, by the four outcomes of the tests before the opcode, and for the ambiguous operand the one after. -/
theorem decodeRefusesExactlyWhen : Obligations.DecodeRefusesExactlyWhen := by
  intro x txt
  refine ⟨isAdmitted_iff, ⟨fun h => ?blank, decode_of_whitespace x⟩, ?ascii, ⟨fun h => ?extra, ?extraMpr⟩, ?ambiguous⟩
  case blank =>
    obtain ⟨-, h'⟩ | ⟨-, ht, -⟩ | ⟨-, op, rest, -, -, -, h'⟩ | ⟨op, rest, hs⟩ := Laws.decode_cases x txt
    · simp [h'] at h
    · exact tokens_eq_nil_iff.mp ht
    · simp [h'] at h
    · exact absurd h (decode_of_spells_answers hs).1
  case ascii =>
    have hsome : (∃ c ∈ txt, isAdmitted c = false) ↔ txt.all isAdmitted = false := by simp [List.all_eq_false]
    rw [hsome]
    refine ⟨fun h => ?_, fun h => by simp [decode, h]⟩
    obtain ⟨ha, -⟩ | ⟨-, -, h'⟩ | ⟨-, op, rest, -, -, -, h'⟩ | ⟨op, rest, hs⟩ := Laws.decode_cases x txt
    · exact ha
    · simp [h'] at h
    · simp [h'] at h
    · exact absurd h (decode_of_spells_answers hs).2.1
  case extra =>
    obtain ⟨-, h'⟩ | ⟨-, -, h'⟩ | ⟨ha, op, rest, ht, hx, hextra, -⟩ | ⟨op, rest, hs⟩ := Laws.decode_cases x txt
    · simp [h'] at h
    · simp [h'] at h
    · exact ⟨hx, ha, op, rest, ht, hextra⟩
    · exact absurd h (decode_of_spells_answers hs).2.2
  case extraMpr =>
    rintro ⟨rfl, ha, op, rest, ht, hextra⟩
    exact decode_refuse_of_extra_tokens ha ht hextra
  case ambiguous =>
    exact decode_eq_iff_operand_token (by simp) (by simp) (by simp) (by simp)
      fun _ _ => decodeOperand_eq_ambiguous_iff

/-- Settles O8: five texts of fixed characters, each run through the decoder. -/
theorem writtenOutTextsDecode : Obligations.WrittenOutTextsDecode := by
  unfold Obligations.WrittenOutTextsDecode
  decide

end Sys2Proof.Proofs
end

section
/-!
PROOFS. Steps (43_cycle_sequencer.md, 60_exceptions.md): what a single step does by what the text at PC decodes to, what
it writes, what it appends to the log, when it has no next state, and that it reads no tag.
-/

namespace Sys2Proof.Proofs

open Sys2Proof Sys2Proof.Machine

/-! ## A step by what the text at PC decodes to -/

theorem step_of_runCycle {s t : State} {b : Bool} (h : runCycle s = .next (t, b)) : step s = .next t :=
  step_next_iff.mpr ⟨b, h⟩

theorem step_of_refused_text {s : State} {r : RefusalReason} (hf : Fetches s) (hd : decodedAt s.pc s = .refused r) :
    step s = .refused (.instructionText r) := by
  rw [step, runCycle_refused hf hd, mapNext]

theorem step_of_marked {s : State} {r : RefusalReason} (h : s.refused = some r) :
    step s = .refused (.instructionText r) := by
  rw [step, runCycle_of_marked h, mapNext]

theorem decodeExecute_of_refused_text {s : State} {r : RefusalReason} (hf : Fetches s)
    (hd : decodedAt s.pc s = .refused r) : decodeExecute (fetch s) = .next ((fetch s).markRefused r) := by
  rw [decodeExecute_fetch hf, hd]

/-- A step that does not fetch leaves the state. -/
theorem step_of_not_fetches {s t : State} (h : step s = .next t) (hf : ¬Fetches s) : t = s := by
  obtain ⟨-, ⟨-, rfl⟩ | ⟨hf', -⟩⟩ := step_cases h
  · rfl
  · exact absurd hf' hf

/-- What fetch leaves in the registers, the execution of an instruction keeps (43_cycle_sequencer.md R83). -/
theorem exec_fetch_registers {i : Instr} {s t : State} (h : exec i (fetch s) = .next t) :
    t.pc = s.pc + 1 ∧ t.mar = s.pc ∧ t.ir = fetchText s.pc s ∧ t.mdr = t.ir := by
  obtain ⟨t', -, he, -, -, -, -, hpc, hir, hmar, hmdr, -⟩ := exec_cases i (fetch s)
  obtain rfl := Host.Outcome.next.inj (he.symm.trans h)
  exact ⟨hpc, hmar, hir, hmdr.trans hir.symm⟩

/-- An anomaly at PC is recorded with the fetch address and the text, and the cycle goes on
(60_exceptions.md R98). -/
theorem runCycle_of_anomaly {s : State} {k : Anomaly} (hf : Fetches s) (hd : decodedAt s.pc s = .anomaly k) :
    runCycle s =
      .next ({ fetch s with log := s.log ++ [anomalyEvent k s.pc (fetchText s.pc s)] }, true) :=
  runCycle_anomaly hf hd

/-! ## What a step writes -/

/-- Of all that a step can write, AC is written by LOAD, ADD and SUB and memory by STORE; the rest leave both
(10_state.md R12, R22). -/
theorem step_writes {s t : State} (h : step s = .next t) :
    (t.ac = s.ac ∧ t.mem = s.mem) ∨
    (t.mem = s.mem ∧ ∃ a, decodedAt s.pc s = .instr (.load a) ∨ decodedAt s.pc s = .instr (.add a) ∨
      decodedAt s.pc s = .instr (.sub a)) ∨
    (t.ac = s.ac ∧ ∃ a, decodedAt s.pc s = .instr (.store a) ∧ t.mem = (memWrite a s.ac s).mem) := by
  obtain ⟨-, ⟨-, rfl⟩ | ⟨-, -, -, -, -, -, -, -, -, ⟨-, rfl⟩ | ⟨-, -, -, -, ⟨i, hd, he⟩ | ⟨k, -, rfl⟩⟩⟩⟩ := step_cases h
  · exact .inl ⟨rfl, rfl⟩
  · exact .inl ⟨rfl, rfl⟩
  · obtain ⟨t', -, he', -, -, -, -, -, -, -, -, -, -, -, hcases⟩ := exec_cases i (fetch s)
    obtain rfl := Host.Outcome.next.inj (he'.symm.trans he)
    obtain ⟨a, rfl, hmem, hac, -⟩ | ⟨-, hmem, -, hac, -⟩ | ⟨a, hi, hmem, -⟩ := hcases
    · have hmem' : t'.mem = (memWrite a s.ac s).mem := by rw [hmem, memWrite_mem, memWrite_mem]; rfl
      exact .inr (.inr ⟨hac, a, hd, hmem'⟩)
    · exact .inl ⟨hac, hmem⟩
    · obtain ⟨rfl, -⟩ | ⟨rfl, -⟩ | ⟨rfl, -⟩ := hi
      · exact .inr (.inl ⟨hmem, a, .inl hd⟩)
      · exact .inr (.inl ⟨hmem, a, .inr (.inl hd)⟩)
      · exact .inr (.inl ⟨hmem, a, .inr (.inr hd)⟩)
  · exact .inl ⟨rfl, rfl⟩

/-! ## The code of an event -/

/-- The code of the event of an instruction (10_state.md R20). -/
def instrCode : Instr → Nat
  | .load _ => 1
  | .store _ => 2
  | .add _ => 3
  | .sub _ => 4
  | .hlt => 5

/-- The code of the event of an anomaly (60_exceptions.md R102). -/
def anomalyCode : Anomaly → Nat
  | .missingOperand => 6
  | .invalidOperand => 7
  | .unknownInstruction => 8

theorem code_anomalyEvent (k : Anomaly) (pc : Nat) (txt : Text) : (anomalyEvent k pc txt).code = anomalyCode k := by
  cases k <;> rfl

theorem eq_of_append_singleton_eq {l l' : List Event} {e e' : Event} (h : l' = l ++ [e]) (h' : l' = l ++ [e']) :
    e = e' :=
  List.singleton_inj.mp (List.append_cancel_left (h.symm.trans h'))

theorem exec_appends_code {i : Instr} {s t : State} (h : exec i s = .next t) :
    ∃ e, t.log = s.log ++ [e] ∧ e.code = instrCode i := by
  cases i with
  | load a => cases h; exact ⟨_, rfl, rfl⟩
  | add a => cases h; exact ⟨_, rfl, rfl⟩
  | sub a => cases h; exact ⟨_, rfl, rfl⟩
  | hlt => cases h; exact ⟨_, rfl, rfl⟩
  | store a =>
    by_cases ha : InRange s a
    · obtain rfl := Host.Outcome.next.inj ((exec_store_inRange ha).symm.trans h)
      exact ⟨_, rfl, rfl⟩
    · obtain rfl := Host.Outcome.next.inj ((exec_store_outOfRange ha).symm.trans h)
      exact ⟨_, rfl, rfl⟩

/-- An event appended by a step is that of the instruction or the anomaly at PC. -/
theorem step_event_code {s t : State} {e : Event} (h : step s = .next t) (hlog : t.log = s.log ++ [e]) :
    (∃ i, decodedAt s.pc s = .instr i ∧ e.code = instrCode i) ∨
      (∃ k, decodedAt s.pc s = .anomaly k ∧ e.code = anomalyCode k) := by
  obtain ⟨-, ⟨-, rfl⟩ | ⟨-, -, -, -, -, -, -, -, -, ⟨-, rfl⟩ | ⟨-, -, -, -, ⟨i, hd, he⟩ | ⟨k, hd, rfl⟩⟩⟩⟩ :=
    step_cases h
  · simp at hlog
  · simp at hlog
  · obtain ⟨e', hlog', hcode⟩ := exec_appends_code he
    exact .inl ⟨i, hd, eq_of_append_singleton_eq hlog hlog' ▸ hcode⟩
  · exact .inr ⟨k, hd, eq_of_append_singleton_eq hlog rfl ▸ code_anomalyEvent k _ _⟩

/-! ## Tags -/

/-- The state with other tags. -/
def withTags (tags : List (Nat × Bool)) (s : State) : State := { s with mem := { s.mem with tag := tags } }

/-- No instruction reads or writes a tag (20_memory.md R29). -/
theorem exec_withTags (tags : List (Nat × Bool)) {i : Instr} {s t : State} (h : exec i s = .next t) :
    exec i (withTags tags s) = .next (withTags tags t) := by
  cases i with
  | load a | add a | sub a | hlt => cases h; rfl
  | store a =>
    by_cases ha : InRange s a
    · have ha' : InRange (withTags tags s) a := ha
      obtain rfl := Host.Outcome.next.inj ((exec_store_inRange ha).symm.trans h)
      exact exec_store_inRange ha'
    · have ha' : ¬InRange (withTags tags s) a := ha
      obtain rfl := Host.Outcome.next.inj ((exec_store_outOfRange ha).symm.trans h)
      exact exec_store_outOfRange ha'

theorem runCycle_withTags (tags : List (Nat × Bool)) {s t : State} {b : Bool} (h : runCycle s = .next (t, b)) :
    runCycle (withTags tags s) = .next (withTags tags t, b) := by
  obtain ⟨hr, ⟨hs, rfl, rfl⟩ | ⟨hf, hb, hcases⟩⟩ := runCycle_cases h
  · exact runCycle_of_stopped hr hs
  have hf' : Fetches (withTags tags s) := hf
  obtain ⟨hd, rfl⟩ | ⟨i, hd, he⟩ | ⟨k, hd, rfl⟩ := hcases
  · have hcontinue : b = true := by simp [hb, hf.2.1]
    exact hcontinue ▸ runCycle_blank hf' hd
  · exact hb ▸ runCycle_instr hf' hd (exec_withTags tags he)
  · have hcontinue : b = true := by simp [hb, recordAnomaly, hf.2.1]
    exact hcontinue ▸ runCycle_anomaly hf' hd

/-! ## The statements -/

/-- Settles O25: the STORE leaves AC and its one data write, and the LOAD reads that cell. -/
theorem storeThenLoadRoundTrip : Obligations.StoreThenLoadRoundTrip := by
  intro a s
  obtain ⟨t, ht, -⟩ := exec_runs (.store a) s
  obtain ⟨hmem, hcfg, -⟩ := exec_store_frame ht
  have hread := (reads_of_exec_store ht a).1
  refine ⟨t, _, ht, exec_load a t, fun hin => ?inRange, fun hout => ⟨?default, ?memory⟩⟩
  case inRange => exact hread.trans (memRead_memWrite_same s.ac hin)
  case default => rw [hread, memWrite_of_not_inRange s.ac hout, memRead_of_not_inRange hout]
  case memory => rw [hmem, memWrite_of_not_inRange s.ac hout]

/-- Settles O26, from all that an execution can do. -/
theorem noInstructionWritesPcOrText : Obligations.NoInstructionWritesPcOrText := by
  intro i s
  obtain ⟨t, -, he, -, -, -, -, hpc, -, -, -, -, htext, htag, -⟩ := exec_cases i s
  exact ⟨t, he, hpc, htext, htag⟩

/-- Settles O32: each of the three spellings decodes to its anomaly, which the cycle records. -/
theorem anomaliesAreRecordedAndSkipped : Obligations.AnomaliesAreRecordedAndSkipped := by
  intro s op rest hf hs hop
  obtain ⟨hmissing, hinvalid, hunknown⟩ := decodeGivesAnAnomalyExactlyWhen s.cfg.extraTokens (fetchText s.pc s)
  refine ⟨fun hrest => ?missing, fun t more hrest hc ha => ?invalid, fun t more hrest hc hu => ?unknown,
    fun _ _ => ⟨rfl, rfl, rfl⟩⟩
  case missing => exact runCycle_of_anomaly hf (hmissing.mpr ⟨op, hrest ▸ hs, hop⟩)
  case invalid => exact runCycle_of_anomaly hf (hinvalid.mpr ⟨op, t, more, hrest ▸ hs, hop, hc, ha⟩)
  case unknown => exact runCycle_of_anomaly hf (hunknown.mpr ⟨op, t, more, hrest ▸ hs, hu, hc⟩)

/-- Settles O35: a core that does not fetch stops where it is, and one that fetches answers unless the text is
refused. -/
theorem onlyARefusedTextStopsAStep : Obligations.OnlyARefusedTextStopsAStep := by
  intro s
  constructor
  · rintro ⟨t, h⟩
    refine ⟨(step_cases h).1, fun hf r hd => ?_⟩
    rw [step_of_refused_text hf hd] at h
    cases h
  · rintro ⟨hr, hok⟩
    by_cases hs : Stopped s
    · exact ⟨s, step_of_runCycle (runCycle_of_stopped hr hs)⟩
    · have hf := fetches_of_not_stopped hr hs
      obtain ⟨t, ht, -⟩ := step_fetches hf (hok hf)
      exact ⟨t, ht⟩

/-- Settles O36: of all that a cycle can do, only HLT halts. -/
theorem cycleReturnsWhetherToContinue : Obligations.CycleReturnsWhetherToContinue := by
  intro s t b h
  obtain ⟨-, ⟨hs, rfl, rfl⟩ | ⟨hf, hb, hcases⟩⟩ := runCycle_cases h
  case inl =>
    have hnot : ¬Fetches t := fun hf => hf.not_stopped hs
    simp [hnot]
  case inr =>
    refine ⟨?_, fun hnot => absurd hf hnot⟩
    rw [and_iff_right hf]
    obtain ⟨hd, rfl⟩ | ⟨i, hd, he⟩ | ⟨k, hd, rfl⟩ := hcases
    · simp [hb, hd, hf.2.1]
    · have hhalts : t.halted = true ↔ i = .hlt := by
        refine ⟨exec_halts_only_by_hlt he hf.2.1, ?_⟩
        rintro rfl
        rw [exec_hlt] at he
        exact Host.Outcome.next.inj he ▸ rfl
      simp [hb, hd, ← hhalts]
    · simp [hb, hd, hf.2.1, recordAnomaly]

/-- Settles O38, from all that a step can do. -/
theorem oneEventPerFetchingCycle : Obligations.OneEventPerFetchingCycle := by
  intro s t h
  refine ⟨fun hf hd => ?event, fun hf hd => ?blank, fun hf => ?stopped⟩
  case stopped => rw [step_of_not_fetches h hf]
  case event =>
    obtain ⟨-, ⟨hs, -⟩ | ⟨-, -, -, -, -, -, -, -, -, ⟨hd', -⟩ | ⟨e, hlog, -⟩⟩⟩ := step_cases h
    · exact absurd hs hf.not_stopped
    · exact absurd hd' hd
    · exact ⟨e, hlog⟩
  case blank =>
    obtain rfl := Host.Outcome.next.inj (h.symm.trans (step_of_runCycle (runCycle_blank hf hd)))
    rfl

/-- Settles O39: the code of the appended event is that of the instruction or anomaly at PC. -/
theorem eventKindTellsTheOutcome : Obligations.EventKindTellsTheOutcome := by
  intro s t e h hlog
  obtain ⟨i, hd, hcode⟩ | ⟨k, hd, hcode⟩ := step_event_code h hlog
  case inl =>
    rw [hd]
    cases i <;> exact hcode
  case inr =>
    rw [hd]
    cases k <;> exact hcode

/-- Settles O41, from all that a step can do. -/
theorem pcAdvancesByOneCell : Obligations.PcAdvancesByOneCell := by
  intro s t h
  refine ⟨fun hf => ?fetching, step_of_not_fetches h⟩
  obtain ⟨-, ⟨hs, -⟩ | ⟨-, hpc, -⟩⟩ := step_cases h
  · exact absurd hs hf.not_stopped
  · exact ⟨hpc, hpc ▸ hf.2.2⟩

/-- Settles O42: neither fetch nor any instruction nor an anomaly reads or writes a tag. -/
theorem cycleDoesNotReadTags : Obligations.CycleDoesNotReadTags := fun _ _ _ tags h => runCycle_withTags tags h

/-- Settles O43, from all that a step can write. -/
theorem writersOfAccumulatorAndData : Obligations.WritersOfAccumulatorAndData := by
  intro s t h
  have hcfg : t.cfg = s.cfg := by
    obtain ⟨b, hb⟩ := step_next_iff.mp h
    exact runCycle_keeps_cfg hb
  have hsame (hmem : t.mem = s.mem) (b : Int) : memRead b t = memRead b s := (reads_of_same_memory hcfg hmem b).1
  obtain ⟨hac, hmem⟩ | ⟨hmem, hwriter⟩ | ⟨hac, a, hd, hmem⟩ := step_writes h
  · exact ⟨fun hne => absurd hac hne, fun b hne => absurd (hsame hmem b) hne⟩
  · exact ⟨fun _ => hwriter, fun b hne => absurd (hsame hmem b) hne⟩
  · refine ⟨fun hne => absurd hac hne, fun b hne => ?_⟩
    have hread : memRead b t = memRead b (memWrite a s.ac s) :=
      (reads_of_same_memory (hcfg.trans (memWrite_cfg a s.ac s).symm) hmem b).1
    obtain rfl : b = a := by
      by_contra hba
      exact hne (hread.trans (memRead_memWrite_other s.ac hba))
    have hin : InRange s b := by
      by_contra hout
      exact hne (by rw [hread, memWrite_of_not_inRange s.ac hout])
    exact ⟨hin, hd, hread.trans (memRead_memWrite_same s.ac hin)⟩

/-- Settles O29: the cycle runs the instruction at PC on the state after fetch. -/
theorem stepRunsTheDecodedInstruction : Obligations.StepRunsTheDecodedInstruction := by
  intro s i hf hd
  obtain ⟨t, he, -⟩ := exec_runs i (fetch s)
  exact ⟨(step_of_instr hf hd he).trans he.symm, t, he, runCycle_instr hf hd he, exec_fetch_registers he⟩

/-- Settles O30: the placed text is the one at PC, and placing it leaves the core fetching. -/
theorem placedTextIsFetchedNext : Obligations.PlacedTextIsFetchedNext := by
  intro s i nbits w hf hd
  have hf' : Fetches (s.withFetchWord nbits w) := fetches_setInstruction.mpr hf
  have hpc : (s.withFetchWord nbits w).pc = s.pc := setInstruction_pc s.pc _ s
  have htext : fetchText s.pc (s.withFetchWord nbits w) = textOfWord nbits w :=
    fetchText_setInstruction_same _ ⟨Int.natCast_nonneg _, Int.ofNat_lt.mpr hf.2.2⟩
  have hd' : decodedAt (s.withFetchWord nbits w).pc (s.withFetchWord nbits w) = .instr i := by
    have hcfg : (s.withFetchWord nbits w).cfg = s.cfg := setInstruction_cfg s.pc _ s
    rw [decodedAt, hpc, htext, hcfg, hd]
  obtain ⟨t, he, -⟩ := exec_runs i (fetch (s.withFetchWord nbits w))
  obtain ⟨-, -, hir, -⟩ := exec_fetch_registers he
  refine ⟨t, step_of_instr hf' hd' he, he, by rw [hir, hpc, htext], ?_⟩
  rw [State.withFetchWord, setInstruction_eq_setMem]
  exact setMem_changes_only_mem _ s

/-- Settles O33: decode-execute marks the state of a refused text, and a marked state answers only the refusal. -/
theorem refusedTextHasNoTransition : Obligations.RefusedTextHasNoTransition := by
  refine ⟨fun s r hf hd => ⟨decodeExecute_of_refused_text hf hd, step_of_refused_text hf hd⟩, fun s r op h => ?_⟩
  exact ⟨step_of_marked h, unlessRefused_some h _⟩

end Sys2Proof.Proofs
end

section
/-!
PROOFS. The invariant (10_state.md): a constructed core meets `SafeState`, and every step and every host operation
keeps it.
-/

namespace Sys2Proof.Proofs

open Sys2Proof Sys2Proof.Machine

/-! ## The log in the order of the fetches -/

/-- The fetch addresses in the log rise and are below PC (43_cycle_sequencer.md R87). -/
def LogOrdered (s : State) : Prop := (logPcs s).Pairwise (· < ·) ∧ ∀ p ∈ logPcs s, p < s.pc

theorem logPcs_append {s t : State} {e : Event} (h : t.log = s.log ++ [e]) :
    logPcs t = logPcs s ++ e.pc?.toList := by
  rw [logPcs, logPcs, h, List.filterMap_append]
  cases he : e.pc? <;> simp [he]

/-- A cycle with no event leaves the order: PC only moves up. -/
theorem LogOrdered.of_same_log {s t : State} (h : LogOrdered s) (hlog : t.log = s.log) (hpc : s.pc ≤ t.pc) :
    LogOrdered t := by
  have hpcs : logPcs t = logPcs s := congrArg (List.filterMap Event.pc?) hlog
  exact ⟨hpcs ▸ h.1, fun p hp => (h.2 p (hpcs ▸ hp)).trans_le hpc⟩

/-- An event of the cell at PC comes last, and PC moves past it. -/
theorem LogOrdered.of_event_at_pc {s t : State} {e : Event} (h : LogOrdered s) (hlog : t.log = s.log ++ [e])
    (he : e.pc? = some s.pc) (hpc : t.pc = s.pc + 1) : LogOrdered t := by
  obtain ⟨hrising, hbelow⟩ := h
  have hpcs : logPcs t = logPcs s ++ [s.pc] := by rw [logPcs_append hlog, he]; rfl
  have hlast (p : Nat) (hp : p ∈ logPcs t) : p < t.pc := by
    rw [hpcs] at hp
    obtain hp | hp := List.mem_append.mp hp
    · have := hbelow p hp
      omega
    · have := List.mem_singleton.mp hp
      omega
  refine ⟨?_, hlast⟩
  rw [hpcs]
  exact List.pairwise_append.mpr ⟨hrising, List.pairwise_singleton _ _, fun p hp q hq =>
    List.mem_singleton.mp hq ▸ hbelow p hp⟩

/-! ## Changes of one part of a safe state -/

/-- Another log keeps the invariant if it is in order. -/
theorem safeState_with_log {s : State} (h : SafeState s) (log : List Event) (hlog : LogOrdered { s with log := log }) :
    SafeState { s with log := log } where
  memWf := h.memWf
  textTagged := h.textTagged
  pcBound := h.pcBound
  fetchRegisters := h.fetchRegisters
  haltedByHlt := h.haltedByHlt
  unrefused := h.unrefused
  logOrdered := hlog

/-- Another memory keeps the invariant if it is canonical and no text stands untagged. -/
theorem safeState_with_memory {s : State} (h : SafeState s) (m : Memory) (hwf : m.wf s.cfg.capacity = true)
    (htagged : ∀ a, tagRead a (s.setMem m) = false → fetchText a (s.setMem m) = []) : SafeState (s.setMem m) where
  memWf := hwf
  textTagged := htagged
  pcBound := h.pcBound
  fetchRegisters := h.fetchRegisters
  haltedByHlt := h.haltedByHlt
  unrefused := h.unrefused
  logOrdered := h.logOrdered

/-- The count of draws is no part of the invariant. -/
theorem safeState_with_draws {s : State} (h : SafeState s) (n : Nat) : SafeState { s with draws := n } where
  memWf := h.memWf
  textTagged := h.textTagged
  pcBound := h.pcBound
  fetchRegisters := h.fetchRegisters
  haltedByHlt := h.haltedByHlt
  unrefused := h.unrefused
  logOrdered := h.logOrdered

/-! ## A constructed core -/

theorem safeState_construct (cfg : Config) : SafeState (State.construct cfg) where
  memWf := rfl
  textTagged := fun a _ => (reads_of_blank_memory (s := State.construct cfg) rfl a).2.1
  pcBound := Nat.zero_le _
  fetchRegisters := .inl ⟨rfl, rfl, rfl, rfl⟩
  haltedByHlt := fun h => nomatch h
  unrefused := rfl
  logOrdered := ⟨List.Pairwise.nil, fun _ hp => nomatch hp⟩

/-! ## A step -/

theorem step_keeps_memory_wf {s t : State} (h : step s = .next t) (hs : s.mem.wf s.cfg.capacity = true) :
    t.mem.wf s.cfg.capacity = true := by
  obtain ⟨-, hmem⟩ | ⟨hmem, -⟩ | ⟨-, a, -, hmem⟩ := step_writes h
  · exact hmem ▸ hs
  · exact hmem ▸ hs
  · have hwf := memWrite_keeps_wf a s.ac hs
    rwa [memWrite_cfg, ← hmem] at hwf

theorem step_keeps_logOrdered {s t : State} (h : step s = .next t) (hs : LogOrdered s) : LogOrdered t := by
  obtain ⟨-, ⟨-, rfl⟩ | ⟨-, hpc, -, -, -, -, -, -, -, ⟨-, rfl⟩ | ⟨e, hlog, he, -⟩⟩⟩ := step_cases h
  · exact hs
  · exact hs.of_same_log rfl (Nat.le_succ _)
  · exact hs.of_event_at_pc hlog he hpc

theorem step_keeps_safeState {s t : State} (hs : SafeState s) (h : step s = .next t) : SafeState t := by
  have hhalted : HaltedByHlt t := by
    obtain ⟨b, hb⟩ := step_next_iff.mp h
    exact runCycle_keeps_haltedByHlt hb hs.haltedByHlt
  have hwf := step_keeps_memory_wf h hs.memWf
  have hlog := step_keeps_logOrdered h hs.logOrdered
  obtain ⟨-, ⟨-, rfl⟩ | ⟨hf, hpc, hmar, -, hmdr, hcfg, hrefused, htext, htag, -⟩⟩ := step_cases h
  case inl => exact hs
  case inr =>
    have hreads (a : Int) : fetchText a t = fetchText a s ∧ tagRead a t = tagRead a s := by
      simp [fetchText, tagRead, InRange, hcfg, htext, htag]
    exact {
      memWf := hcfg ▸ hwf
      textTagged := fun a ha => (hreads a).1.trans (hs.textTagged a ((hreads a).2.symm.trans ha))
      pcBound := by rw [hpc, hcfg]; exact hf.2.2
      fetchRegisters := .inr ⟨by rw [hpc, hmar], hmdr⟩
      haltedByHlt := hhalted
      unrefused := hrefused
      logOrdered := hlog }

/-! ## A run -/

/-- A banner records no fetch address. -/
theorem safeState_emit_banner {s : State} {e : Event} (hs : SafeState s) (he : e.pc? = none) :
    SafeState (s.emit e) := by
  refine safeState_with_log hs (s.log ++ [e]) ?_
  have hpcs : logPcs (s.emit e) = logPcs s := by rw [logPcs_append (State.emit_log e s), he]; exact List.append_nil _
  have hordered : LogOrdered (s.emit e) := ⟨hpcs ▸ hs.logOrdered.1, hpcs ▸ hs.logOrdered.2⟩
  exact hordered

theorem safeState_clearLog {s : State} (hs : SafeState s) : SafeState s.clearLog :=
  safeState_with_log hs [] ⟨List.Pairwise.nil, fun _ hp => nomatch hp⟩

theorem runProgram_keeps_safeState {s t : State} {l : List Event} (hs : SafeState s)
    (h : runProgram s = .next (t, l)) : SafeState t := by
  obtain ⟨u, hloop, rfl⟩ := runProgram_next h
  have hstart : SafeState (s.clearLog.emit .runStart) := safeState_emit_banner (safeState_clearLog hs) rfl
  have hu : SafeState u :=
    runLoop_keeps (fun _ _ _ hc hp => step_keeps_safeState hp (step_of_runCycle hc)) hloop hstart
  exact safeState_emit_banner hu rfl

/-! ## The other host operations -/

theorem safeState_hostReset {s : State} (hs : SafeState s) : SafeState (hostReset s) :=
  hostReset_eq_construct hs.unrefused ▸ safeState_with_draws (safeState_construct s.cfg) s.draws

theorem safeState_clearMemory {s : State} (hs : SafeState s) : SafeState (clearMemory s) :=
  safeState_with_memory hs Memory.blank (clearMemory_has_wf s) fun a _ =>
    (reads_of_blank_memory (clearMemory_mem s) a).2.1

theorem safeState_setData {s : State} (hs : SafeState s) (a : Int) (v : Value) : SafeState (setData a v s) := by
  rw [setData_eq, memWrite_eq_setMem]
  have hwf := memWrite_keeps_wf a v hs.memWf
  rw [memWrite_cfg] at hwf
  refine safeState_with_memory hs _ hwf fun b hb => ?_
  rw [← memWrite_eq_setMem] at hb ⊢
  rw [tagRead_memWrite] at hb
  rw [fetchText_memWrite, hs.textTagged b hb]

theorem safeState_setInstruction {s : State} (hs : SafeState s) (a : Int) (txt : Text) :
    SafeState (setInstruction a txt s) := by
  rw [setInstruction_eq_setMem]
  have hwf := setInstruction_keeps_wf a txt hs.memWf
  rw [setInstruction_cfg] at hwf
  refine safeState_with_memory hs _ hwf fun b hb => ?_
  rw [← setInstruction_eq_setMem] at hb ⊢
  by_cases hba : b = a
  case neg =>
    rw [tagRead_setInstruction_other txt hba] at hb
    rw [fetchText_setInstruction_other txt hba, hs.textTagged b hb]
  case pos =>
    subst hba
    by_cases hin : InRange s b
    · rw [tagRead_setInstruction_same txt hin] at hb
      cases hb
    · rw [setInstruction_of_not_inRange txt hin, fetchText_of_not_inRange hin]

theorem hostStep_keeps_safeState {s t : State} {op : HostOp} {r : Reply} (hs : SafeState s)
    (h : hostStep op s = .next (t, r)) : SafeState t := by
  rw [hostStep_of_unmarked hs.unrefused] at h
  cases op with
  | reset => cases h; exact safeState_hostReset hs
  | step =>
    obtain ⟨⟨u, b⟩, hu, heq⟩ := mapNext_next h
    cases heq
    exact step_keeps_safeState hs (step_of_runCycle hu)
  | run =>
    obtain ⟨⟨u, l⟩, hu, heq⟩ := mapNext_next h
    cases heq
    exact runProgram_keeps_safeState hs hu
  | setInstruction a txt => cases h; exact safeState_setInstruction hs a txt
  | setData a v => cases h; exact safeState_setData hs a v
  | clear => cases h; exact safeState_clearMemory hs
  | getValue | getInstruction | isInstructionAddress | dump | snapshot | readHalted | readLog | status =>
    cases h; exact hs

/-! ## A session -/

theorem hostSession_keeps_safeState {ops : List HostOp} {s t : State} {replies : List Reply} (hs : SafeState s)
    (h : hostSession ops s = .next (t, replies)) : SafeState t := by
  induction ops generalizing s replies with
  | nil => cases h; exact hs
  | cons op ops ih =>
    unfold hostSession at h
    split at h
    next u r hu =>
      obtain ⟨⟨v, rs⟩, hrest, heq⟩ := mapNext_next h
      cases heq
      exact ih (hostStep_keeps_safeState hs hu) hrest
    next => cases h
    next => cases h

/-! ## The statements -/

/-- Settles O57: what a fetching step writes is canonical, its event is the last one, and only HLT halts. -/
theorem stepKeepsTheInvariant : Obligations.StepKeepsTheInvariant := fun _ _ => step_keeps_safeState

/-- Settles O58: a run is steps between two banners, a reset core is as constructed, the loads keep texts tagged. -/
theorem hostOperationKeepsTheInvariant : Obligations.HostOperationKeepsTheInvariant :=
  fun _ _ _ _ => hostStep_keeps_safeState

/-- Settles O59, by induction on the operations. -/
theorem reachableStatesAreSafe : Obligations.ReachableStatesAreSafe :=
  fun cfg _ _ _ => hostSession_keeps_safeState (safeState_construct cfg)

/-- Settles O56: nothing is in the log or the memory of a constructed core. -/
theorem freshCoreIsSafe : Obligations.FreshCoreIsSafe := ⟨safeState_construct, safeState_construct Config.default⟩

end Sys2Proof.Proofs
end

section
/-!
PROOFS. Memory as its reads (20_memory.md, 70_reset_and_hazards.md): a canonical memory is determined by what its cells
read, what a sequence of writes leaves to read, loading a program, and what the host's observations answer.
-/

namespace Sys2Proof.Proofs

open Sys2Proof Sys2Proof.Machine

/-! ## A canonical view is determined by its reads (log entry 9) -/

section
variable {α : Type}

/-- A cell below every entry of a view holds the default. -/
theorem viewRead_of_below {d : α} {m : List (Nat × α)} {a : Nat} (h : ∀ e ∈ m, a < e.1) : viewRead d m a = d := by
  induction m with
  | nil => rfl
  | cons e m ih =>
    have hne : e.1 ≠ a := (h e List.mem_cons_self).ne'
    rw [viewRead, if_neg hne, ih fun e' he' => h e' (List.mem_cons_of_mem e he')]

theorem viewRead_head (d : α) (e : Nat × α) (m : List (Nat × α)) : viewRead d (e :: m) e.1 = e.2 := if_pos rfl

theorem viewRead_tail {d : α} {e : Nat × α} {m : List (Nat × α)} {a : Nat} (h : e.1 ≠ a) :
    viewRead d (e :: m) a = viewRead d m a := if_neg h

variable [DecidableEq α]

/-- The first entry of a canonical view is not below the first of another that reads the same. -/
theorem viewWf_head_le {d : α} {n : Nat} {e e' : Nat × α} {m m' : List (Nat × α)} (h : viewWf d n (e :: m) = true)
    (h' : viewWf d n (e' :: m') = true) (hread : ∀ a < n, viewRead d (e :: m) a = viewRead d (e' :: m') a) :
    e'.1 ≤ e.1 := by
  obtain ⟨-, hn, hne, -⟩ := viewWf_cons.mp h
  obtain ⟨hlt', -, -, -⟩ := viewWf_cons.mp h'
  by_contra hlt
  rw [not_le] at hlt
  have hbelow : ∀ q ∈ e' :: m', e.1 < q.1 := by
    intro q hq
    obtain rfl | hq := List.mem_cons.mp hq
    · exact hlt
    · exact hlt.trans (hlt' q hq)
  exact hne ((viewRead_head d e m).symm.trans ((hread e.1 hn).trans (viewRead_of_below hbelow)))

/-- A canonical view in which every cell reads as the default is empty. -/
theorem viewWf_eq_nil {d : α} {n : Nat} {m : List (Nat × α)} (h : viewWf d n m = true)
    (hread : ∀ a < n, viewRead d m a = d) : m = [] := by
  cases m with
  | nil => rfl
  | cons e m =>
    obtain ⟨-, hn, hne, -⟩ := viewWf_cons.mp h
    exact absurd ((viewRead_head d e m).symm.trans (hread e.1 hn)) hne

theorem view_eq_of_reads {d : α} {n : Nat} {m m' : List (Nat × α)} (h : viewWf d n m = true)
    (h' : viewWf d n m' = true) (hread : ∀ a < n, viewRead d m a = viewRead d m' a) : m = m' := by
  induction m generalizing m' with
  | nil => exact (viewWf_eq_nil h' fun a ha => (hread a ha).symm).symm
  | cons e m ih =>
    cases m' with
    | nil => exact viewWf_eq_nil h hread
    | cons e' m' =>
      have haddr : e.1 = e'.1 :=
        le_antisymm (viewWf_head_le h' h fun a ha => (hread a ha).symm) (viewWf_head_le h h' hread)
      obtain ⟨hlt, hn, -, hm⟩ := viewWf_cons.mp h
      obtain ⟨hlt', -, -, hm'⟩ := viewWf_cons.mp h'
      have hvalue : e.2 = e'.2 := by
        have hhead := hread e.1 hn
        rwa [viewRead_head, haddr, viewRead_head] at hhead
      have htail : m = m' := by
        refine ih hm hm' fun a ha => ?_
        by_cases hea : e.1 = a
        · rw [viewRead_of_below fun q hq => hea ▸ hlt q hq, viewRead_of_below fun q hq => hea ▸ haddr ▸ hlt' q hq]
        · have hcons := hread a ha
          rwa [viewRead_tail hea, viewRead_tail (haddr ▸ hea)] at hcons
      rw [Prod.ext haddr hvalue, htail]

end

/-- Do the cells of two states read the same, in all three views? -/
def SameReads (s t : State) : Prop :=
  ∀ a : Int, memRead a s = memRead a t ∧ fetchText a s = fetchText a t ∧ tagRead a s = tagRead a t

theorem mem_eq_of_sameReads {s t : State} (hcfg : s.cfg = t.cfg) (hs : s.mem.wf s.cfg.capacity = true)
    (ht : t.mem.wf t.cfg.capacity = true) (h : SameReads s t) : s.mem = t.mem := by
  obtain ⟨hdata, htext, htag⟩ := Memory.wf_iff.mp hs
  obtain ⟨hdata', htext', htag'⟩ := Memory.wf_iff.mp (hcfg ▸ ht)
  have hin (a : Nat) (ha : a < s.cfg.capacity) : InRange s a ∧ InRange t a := by
    have hcell : InRange s a := ⟨Int.natCast_nonneg a, Int.ofNat_lt.mpr ha⟩
    exact ⟨hcell, by rwa [InRange, ← hcfg]⟩
  have hd : s.mem.data = t.mem.data := view_eq_of_reads hdata hdata' fun a ha => by
    have hread := (h a).1
    rwa [memRead_of_inRange (hin a ha).1, memRead_of_inRange (hin a ha).2] at hread
  have hx : s.mem.text = t.mem.text := view_eq_of_reads htext htext' fun a ha => by
    have hread := (h a).2.1
    rwa [fetchText_of_inRange (hin a ha).1, fetchText_of_inRange (hin a ha).2] at hread
  have hg : s.mem.tag = t.mem.tag := view_eq_of_reads htag htag' fun a ha => by
    have hread := (h a).2.2
    rwa [tagRead_of_inRange (hin a ha).1, tagRead_of_inRange (hin a ha).2] at hread
  calc s.mem = ⟨s.mem.data, s.mem.text, s.mem.tag⟩ := rfl
    _ = ⟨t.mem.data, t.mem.text, t.mem.tag⟩ := by rw [hd, hx, hg]

/-! ## States that differ in memory only -/

/-- Nothing but memory differs between the two states. -/
def SameButMemory (s t : State) : Prop := { t with mem := s.mem } = s

theorem sameButMemory_refl (s : State) : SameButMemory s s := rfl

theorem sameButMemory_iff {s t : State} : SameButMemory s t ↔ ∃ m, t = s.setMem m := by
  constructor
  · intro h
    have hput := congrArg (State.setMem t.mem) h
    exact ⟨t.mem, hput⟩
  · rintro ⟨m, rfl⟩
    exact setMem_changes_only_mem m s

theorem SameButMemory.cfg {s t : State} (h : SameButMemory s t) : t.cfg = s.cfg := by
  obtain ⟨m, rfl⟩ := sameButMemory_iff.mp h
  rfl

theorem SameButMemory.trans {s t u : State} (h : SameButMemory s t) (h' : SameButMemory t u) : SameButMemory s u := by
  obtain ⟨m, rfl⟩ := sameButMemory_iff.mp h
  obtain ⟨m', rfl⟩ := sameButMemory_iff.mp h'
  exact setMem_changes_only_mem m' s

theorem sameButMemory_setData (a : Int) (v : Value) (s : State) : SameButMemory s (setData a v s) :=
  memWrite_changes_only_mem a v s

theorem sameButMemory_setInstruction (a : Int) (txt : Text) (s : State) :
    SameButMemory s (setInstruction a txt s) :=
  sameButMemory_iff.mpr ⟨_, setInstruction_eq_setMem a txt s⟩

/-- Two states that both came from `s` by changes of memory are one if their memories are canonical and read the
same. -/
theorem eq_of_sameReads {s t u : State} (ht : SameButMemory s t) (hu : SameButMemory s u)
    (htwf : t.mem.wf t.cfg.capacity = true) (huwf : u.mem.wf u.cfg.capacity = true) (h : SameReads t u) : t = u := by
  have hmem : t.mem = u.mem := mem_eq_of_sameReads (ht.cfg.trans hu.cfg.symm) htwf huwf h
  obtain ⟨m, rfl⟩ := sameButMemory_iff.mp ht
  obtain ⟨m', rfl⟩ := sameButMemory_iff.mp hu
  exact congrArg s.setMem hmem

/-! ## The two loading ports -/

theorem memRead_setData_same {a : Int} {s : State} (v : Value) (h : InRange s a) : memRead a (setData a v s) = v :=
  memRead_memWrite_same v h

theorem memRead_setData_other {a b : Int} {s : State} (v : Value) (h : b ≠ a) :
    memRead b (setData a v s) = memRead b s := memRead_memWrite_other v h

theorem setData_of_not_inRange {a : Int} {s : State} (v : Value) (h : ¬InRange s a) : setData a v s = s :=
  memWrite_of_not_inRange v h

@[simp] theorem setData_cfg (a : Int) (v : Value) (s : State) : (setData a v s).cfg = s.cfg := memWrite_cfg a v s

@[simp] theorem fetchText_setData (b a : Int) (v : Value) (s : State) : fetchText b (setData a v s) = fetchText b s :=
  fetchText_memWrite b a v s

@[simp] theorem tagRead_setData (b a : Int) (v : Value) (s : State) : tagRead b (setData a v s) = tagRead b s :=
  tagRead_memWrite b a v s

/-- A data write decides what its own cell reads, whatever was there before. -/
theorem memRead_setData_congr {a b : Int} {s t : State} (v : Value) (hcfg : s.cfg = t.cfg)
    (h : b ≠ a → memRead b s = memRead b t) : memRead b (setData a v s) = memRead b (setData a v t) := by
  by_cases hba : b = a
  case neg => rw [memRead_setData_other v hba, memRead_setData_other v hba, h hba]
  case pos =>
    subst hba
    by_cases hin : InRange s b
    · have hin' : InRange t b := by rwa [InRange, ← hcfg]
      rw [memRead_setData_same v hin, memRead_setData_same v hin']
    · have hout : ¬InRange t b := by rwa [InRange, ← hcfg]
      rw [setData_of_not_inRange v hin, setData_of_not_inRange v hout, memRead_of_not_inRange hin,
        memRead_of_not_inRange hout]

/-- So does placing a text, of the text and the tag. -/
theorem reads_setInstruction_congr {a b : Int} {s t : State} (txt : Text) (hcfg : s.cfg = t.cfg)
    (h : b ≠ a → fetchText b s = fetchText b t ∧ tagRead b s = tagRead b t) :
    fetchText b (setInstruction a txt s) = fetchText b (setInstruction a txt t) ∧
      tagRead b (setInstruction a txt s) = tagRead b (setInstruction a txt t) := by
  by_cases hba : b = a
  case neg =>
    rw [fetchText_setInstruction_other txt hba, fetchText_setInstruction_other txt hba,
      tagRead_setInstruction_other txt hba, tagRead_setInstruction_other txt hba]
    exact h hba
  case pos =>
    subst hba
    by_cases hin : InRange s b
    · have hin' : InRange t b := by rwa [InRange, ← hcfg]
      rw [fetchText_setInstruction_same txt hin, fetchText_setInstruction_same txt hin',
        tagRead_setInstruction_same txt hin, tagRead_setInstruction_same txt hin']
      exact ⟨rfl, rfl⟩
    · have hout : ¬InRange t b := by rwa [InRange, ← hcfg]
      rw [setInstruction_of_not_inRange txt hin, setInstruction_of_not_inRange txt hout, fetchText_of_not_inRange hin,
        fetchText_of_not_inRange hout, tagRead_of_not_inRange hin, tagRead_of_not_inRange hout]
      exact ⟨rfl, rfl⟩

/-! ## Loading calls commute -/

section
variable {s : State} (hwf : s.mem.wf s.cfg.capacity = true)
include hwf

theorem setData_setInstruction_comm (a : Int) (txt : Text) (b : Int) (v : Value) :
    setData b v (setInstruction a txt s) = setInstruction a txt (setData b v s) := by
  refine eq_of_sameReads ((sameButMemory_setInstruction a txt s).trans (sameButMemory_setData b v _))
    ((sameButMemory_setData b v s).trans (sameButMemory_setInstruction a txt _))
    (memWrite_keeps_wf b v (setInstruction_keeps_wf a txt hwf))
    (setInstruction_keeps_wf a txt (memWrite_keeps_wf b v hwf)) fun c => ⟨?data, ?text⟩
  case data =>
    rw [memRead_setInstruction]
    exact memRead_setData_congr v (setInstruction_cfg a txt s) fun _ => memRead_setInstruction c a txt s
  case text =>
    rw [fetchText_setData, tagRead_setData]
    exact reads_setInstruction_congr txt (setData_cfg b v s).symm fun _ =>
      ⟨(fetchText_setData c b v s).symm, (tagRead_setData c b v s).symm⟩

theorem setData_comm {a b : Int} (v w : Value) (hab : a ≠ b) :
    setData b w (setData a v s) = setData a v (setData b w s) := by
  refine eq_of_sameReads ((sameButMemory_setData a v s).trans (sameButMemory_setData b w _))
    ((sameButMemory_setData b w s).trans (sameButMemory_setData a v _))
    (memWrite_keeps_wf b w (memWrite_keeps_wf a v hwf)) (memWrite_keeps_wf a v (memWrite_keeps_wf b w hwf))
    fun c => ⟨?data, by simp only [fetchText_setData], by simp only [tagRead_setData]⟩
  case data =>
    by_cases hca : c = a
    · subst hca
      rw [memRead_setData_other w hab]
      exact memRead_setData_congr v (setData_cfg b w s).symm fun hne => absurd rfl hne
    · rw [memRead_setData_other v hca]
      exact memRead_setData_congr w (setData_cfg a v s) fun _ => memRead_setData_other v hca

theorem setInstruction_comm {a b : Int} (txt txt' : Text) (hab : a ≠ b) :
    setInstruction b txt' (setInstruction a txt s) = setInstruction a txt (setInstruction b txt' s) := by
  refine eq_of_sameReads ((sameButMemory_setInstruction a txt s).trans (sameButMemory_setInstruction b txt' _))
    ((sameButMemory_setInstruction b txt' s).trans (sameButMemory_setInstruction a txt _))
    (setInstruction_keeps_wf b txt' (setInstruction_keeps_wf a txt hwf))
    (setInstruction_keeps_wf a txt (setInstruction_keeps_wf b txt' hwf))
    fun c => ⟨by simp only [memRead_setInstruction], ?text⟩
  case text =>
    by_cases hca : c = a
    · subst hca
      rw [fetchText_setInstruction_other txt' hab, tagRead_setInstruction_other txt' hab]
      exact reads_setInstruction_congr txt (setInstruction_cfg b txt' s).symm fun hne => absurd rfl hne
    · rw [fetchText_setInstruction_other txt hca, tagRead_setInstruction_other txt hca]
      exact reads_setInstruction_congr txt' (setInstruction_cfg a txt s) fun _ =>
        ⟨fetchText_setInstruction_other txt hca, tagRead_setInstruction_other txt hca⟩

end

/-! ## Loading a program -/

section
variable {β γ : Type} {write : Int → β → State → State} {read : Int → State → γ}

/-- The state after one write per entry, in order: the shape of both loops of `loadProgram` (`loadProgram_eq`). -/
def writeAll (write : Int → β → State → State) (es : List (Int × β)) (s : State) : State :=
  es.foldl (fun t e => write e.1 e.2 t) s

theorem writeAll_cons (e : Int × β) (es : List (Int × β)) (s : State) :
    writeAll write (e :: es) s = writeAll write es (write e.1 e.2 s) := rfl

theorem sameButMemory_writeAll (h : ∀ a v s, SameButMemory s (write a v s)) (es : List (Int × β)) (s : State) :
    SameButMemory s (writeAll write es s) := by
  induction es generalizing s with
  | nil => exact sameButMemory_refl s
  | cons e es ih => exact (h e.1 e.2 s).trans (ih _)

/-- A read that no listed write changes. -/
theorem read_writeAll_kept {b : Int} {es : List (Int × β)}
    (h : ∀ e ∈ es, ∀ t, read b (write e.1 e.2 t) = read b t) (s : State) :
    read b (writeAll write es s) = read b s := by
  induction es generalizing s with
  | nil => rfl
  | cons e es ih =>
    rw [writeAll_cons, ih fun e' he' => h e' (List.mem_cons_of_mem e he')]
    exact h e List.mem_cons_self s

/-- A read at a listed address sees what is listed for it, if no address is listed twice and all are in range. -/
theorem read_writeAll_listed {val : β → γ} {es : List (Int × β)} {s : State}
    (hmem : ∀ a v s, SameButMemory s (write a v s))
    (hsame : ∀ a v s, InRange s a → read a (write a v s) = val v)
    (hother : ∀ a b v s, b ≠ a → read b (write a v s) = read b s)
    (hrange : ∀ e ∈ es, InRange s e.1) (hnodup : noRepeats (es.map Prod.fst) = true) :
    ∀ e ∈ es, read e.1 (writeAll write es s) = val e.2 := by
  induction es generalizing s with
  | nil => exact fun e he => nomatch he
  | cons e es ih =>
    simp only [List.map_cons, noRepeats, Bool.and_eq_true, Bool.not_eq_true', List.contains_eq_mem,
      decide_eq_false_iff_not] at hnodup
    obtain ⟨hfresh, hnodup⟩ := hnodup
    intro q hq
    rw [writeAll_cons]
    obtain rfl | hq := List.mem_cons.mp hq
    · rw [read_writeAll_kept fun e' he' t => hother e'.1 q.1 e'.2 t fun heq =>
        hfresh (heq ▸ List.mem_map_of_mem he')]
      exact hsame q.1 q.2 s (hrange q List.mem_cons_self)
    · refine ih (fun e' he' => ?_) hnodup q hq
      have hin := hrange e' (List.mem_cons_of_mem e he')
      rwa [InRange, (hmem e.1 e.2 s).cfg]

end

theorem loadProgram_eq (p : Program) (s : State) :
    loadProgram p s = writeAll setData p.data (writeAll setInstruction p.instructions s) := rfl

theorem cellAddress_iff {s : State} {a : Int} : cellAddress s.cfg.capacity a = true ↔ InRange s a :=
  decide_eq_true_iff

/-- A well-formed program, mapping by mapping (43_cycle_sequencer.md R81). -/
theorem program_wf_iff {p : Program} {s : State} : p.wf s.cfg.capacity = true ↔
    ((∀ e ∈ p.instructions, InRange s e.1) ∧ noRepeats (p.instructions.map Prod.fst) = true) ∧
    (∀ e ∈ p.data, InRange s e.1) ∧ noRepeats (p.data.map Prod.fst) = true := by
  simp only [Program.wf, Bool.and_eq_true, List.all_eq_true, cellAddress_iff, and_assoc]

/-! ## A sequence of writes and clears -/

theorem dataWrite_cfg (w : Option (Int × Value)) (s : State) : (dataWrite w s).cfg = s.cfg := by
  cases w with
  | none => rfl
  | some e => exact setData_cfg e.1 e.2 s

theorem foldl_dataWrite_cfg (ws : List (Option (Int × Value))) (s : State) :
    (ws.foldl (fun t w => dataWrite w t) s).cfg = s.cfg := by
  induction ws generalizing s with
  | nil => rfl
  | cons w ws ih => exact (ih _).trans (dataWrite_cfg w s)

/-! ## dump -/

/-- The cells from `lo` below `hi`, in rising order, are a stretch of the cells of memory. -/
theorem filter_range_eq_range' (lo hi n : Nat) :
    (List.range n).filter (fun a => decide (lo ≤ a ∧ a < hi)) = List.range' lo (min hi n - lo) := by
  induction n with
  | zero => simp
  | succ n ih =>
    rw [List.range_succ, List.filter_append, ih]
    by_cases hn : lo ≤ n ∧ n < hi
    · have hlen : min hi (n + 1) - lo = (min hi n - lo) + 1 := by omega
      have hlast : lo + (min hi n - lo) = n := by omega
      rw [hlen, List.range'_1_concat, hlast]
      simp [hn.1, hn.2]
    · have hlen : min hi (n + 1) - lo = min hi n - lo := by omega
      rw [hlen]
      simpa using hn

/-! ## The status -/

theorem status_eq_halted_iff {s : State} : status s = .halted ↔ s.halted = true := by
  cases hh : s.halted with
  | true => simp [status_of_halted hh]
  | false => rw [status_of_running hh]; split <;> simp

theorem status_eq_outOfBounds_iff {s : State} :
    status s = .outOfBounds ↔ s.halted = false ∧ s.cfg.capacity ≤ s.pc := by
  cases hh : s.halted with
  | true => simp [status_of_halted hh]
  | false => simp [status_of_running hh]

/-! ## The statements -/

/-- Settles O11, by the read-after-write laws of the text and the tag. -/
theorem setInstructionSetsTextAndTag : Obligations.SetInstructionSetsTextAndTag := by
  intro a txt s
  refine ⟨fun hin => ⟨fetchText_setInstruction_same txt hin, tagRead_setInstruction_same txt hin⟩,
    fun b hb => ⟨fetchText_setInstruction_other txt hb, tagRead_setInstruction_other txt hb⟩,
    fun b => memRead_setInstruction b a txt s, sameButMemory_setInstruction a txt s,
    setInstruction_of_not_inRange txt, fun hr => hostStep_of_unmarked hr _⟩

/-- Settles O15: the stretch of cells that `dump` walks is the part of memory in `[start, stop)`. -/
theorem dumpRecordsTheRange : Obligations.DumpRecordsTheRange := by
  intro start stop s
  have hcells : (fun a : Nat => decide (start ≤ (a : Int) ∧ (a : Int) < stop)) =
      fun a => decide (start.toNat ≤ a ∧ a < stop.toNat) :=
    funext fun a => decide_eq_decide.mpr (by omega)
  rw [hcells, filter_range_eq_range']
  rfl

/-- Settles O16, by induction on the sequence from its end: only its last write to the cell or clear is seen. -/
theorem readReturnsTheLastWrite : Obligations.ReadReturnsTheLastWrite := by
  intro a s ws hin
  induction ws using List.reverseRecOn with
  | nil => rfl
  | append_singleton ws w ih =>
    have hin' : InRange (ws.foldl (fun t w => dataWrite w t) s) a := by rwa [InRange, foldl_dataWrite_cfg]
    rw [List.foldl_concat, List.filter_append, List.filter_singleton]
    cases w with
    | none => simpa [dataWrite] using (reads_of_blank_memory (clearMemory_mem _) a).1
    | some e =>
      obtain ⟨b, v⟩ := e
      by_cases hba : b = a
      · subst hba
        simpa [dataWrite] using memRead_setData_same v hin'
      · have hother := memRead_setData_other (s := ws.foldl (fun t w => dataWrite w t) s) v (Ne.symm hba)
        simpa [hba, dataWrite] using hother.trans ih

/-- Settles O17, view by view. -/
theorem canonicalMemoriesAreDetermined : Obligations.CanonicalMemoriesAreDetermined :=
  fun _ _ => mem_eq_of_sameReads

/-- Settles O54: each of the two loops leaves at a listed address what is listed there, and does not touch the
other's view. -/
theorem loadingPlacesTheProgram : Obligations.LoadingPlacesTheProgram := by
  intro p s hwf
  obtain ⟨⟨hrange, hnodup⟩, hrange', hnodup'⟩ := program_wf_iff.mp hwf
  have htexts (t : State) (a : Int) :
      fetchText a (writeAll setData p.data t) = fetchText a t ∧ tagRead a (writeAll setData p.data t) = tagRead a t :=
    ⟨read_writeAll_kept (fun e _ u => fetchText_setData a e.1 e.2 u) t,
      read_writeAll_kept (fun e _ u => tagRead_setData a e.1 e.2 u) t⟩
  have hdata (a : Int) : memRead a (writeAll setInstruction p.instructions s) = memRead a s :=
    read_writeAll_kept (fun e _ u => memRead_setInstruction a e.1 e.2 u) s
  have hfirst := sameButMemory_writeAll sameButMemory_setInstruction p.instructions s
  rw [loadProgram_eq]
  refine ⟨fun e he => ?text, fun e he => ?data, fun a ha => ?otherText, fun a ha => ?otherData,
    hfirst.trans (sameButMemory_writeAll sameButMemory_setData p.data _)⟩
  case text =>
    rw [(htexts _ _).1, (htexts _ _).2]
    exact ⟨read_writeAll_listed (val := id) sameButMemory_setInstruction
        (fun _ txt _ => fetchText_setInstruction_same txt) (fun _ _ txt _ => fetchText_setInstruction_other txt)
        hrange hnodup e he,
      read_writeAll_listed (val := fun _ => true) sameButMemory_setInstruction
        (fun _ txt _ => tagRead_setInstruction_same txt) (fun _ _ txt _ => tagRead_setInstruction_other txt)
        hrange hnodup e he⟩
  case data =>
    refine read_writeAll_listed (val := id) sameButMemory_setData (fun _ v _ => memRead_setData_same v)
      (fun _ _ v _ => memRead_setData_other v) (fun e' he' => ?_) hnodup' e he
    have hin := hrange' e' he'
    rwa [InRange, hfirst.cfg]
  case otherText =>
    rw [(htexts _ _).1, (htexts _ _).2]
    have hne (e : Int × Text) (he : e ∈ p.instructions) : a ≠ e.1 := fun h => ha (h ▸ List.mem_map_of_mem he)
    exact ⟨read_writeAll_kept (fun e he _ => fetchText_setInstruction_other e.2 (hne e he)) s,
      read_writeAll_kept (fun e he _ => tagRead_setInstruction_other e.2 (hne e he)) s⟩
  case otherData =>
    have hne (e : Int × Value) (he : e ∈ p.data) : a ≠ e.1 := fun h => ha (h ▸ List.mem_map_of_mem he)
    rw [read_writeAll_kept fun e he _ => memRead_setData_other e.2 (hne e he), hdata]

/-- Settles O55: the two orders leave canonical memories that read the same. -/
theorem loadingOrderIsFree : Obligations.LoadingOrderIsFree := fun _ hwf =>
  ⟨fun a txt b v => setData_setInstruction_comm hwf a txt b v, fun _ v _ w hab => setData_comm hwf v w hab,
    fun _ txt _ txt' hab => setInstruction_comm hwf txt txt' hab⟩

/-- Settles O14: each observation is its arm of `hostApply`, and the status tests `halted` first. -/
theorem observationsChangeNothing : Obligations.ObservationsChangeNothing := by
  intro s start stop hr
  exact ⟨hostStep_of_unmarked hr _, hostStep_of_unmarked hr _, hostStep_of_unmarked hr _,
    ⟨status s, hostStep_of_unmarked hr _, status_eq_halted_iff, status_eq_outOfBounds_iff⟩,
    hostStep_of_unmarked hr _⟩

end Sys2Proof.Proofs
end

section
/-!
PROOFS. Runs and resets (43_cycle_sequencer.md, 70_reset_and_hazards.md): every run without a refused text ends, how
far it gets, what a run of blank memory does, and what reset leaves.
-/

namespace Sys2Proof.Proofs

open Sys2Proof Sys2Proof.Machine

/-! ## How far a cycle, and a run, gets -/

/-- From `s` to `t` PC has not gone back, nor past the larger of its start and N, and there is at most one new event
per cell it has passed. -/
def Progress (s t : State) : Prop :=
  t.cfg = s.cfg ∧ s.pc ≤ t.pc ∧ t.pc ≤ max s.pc s.cfg.capacity ∧
    ∃ new, t.log = s.log ++ new ∧ new.length ≤ t.pc - s.pc

theorem progress_refl (s : State) : Progress s s :=
  ⟨rfl, le_rfl, le_max_left _ _, [], (List.append_nil _).symm, Nat.zero_le _⟩

theorem Progress.trans {s t u : State} (h : Progress s t) (h' : Progress t u) : Progress s u := by
  obtain ⟨hcfg, hle, hmax, new, hlog, hlen⟩ := h
  obtain ⟨hcfg', hle', hmax', new', hlog', hlen'⟩ := h'
  rw [hcfg] at hmax'
  refine ⟨hcfg'.trans hcfg, hle.trans hle', by omega, new ++ new', ?_, ?_⟩
  · rw [hlog', hlog, List.append_assoc]
  · rw [List.length_append]
    omega

theorem step_progress {s t : State} (h : step s = .next t) : Progress s t := by
  obtain ⟨-, ⟨-, rfl⟩ | ⟨hf, hpc, -, -, -, hcfg, -, -, -, hcases⟩⟩ := step_cases h
  · exact progress_refl t
  have hinside := hf.2.2
  have hevents : ∃ new, t.log = s.log ++ new ∧ new.length ≤ 1 := by
    obtain ⟨-, rfl⟩ | ⟨e, hlog, -⟩ := hcases
    · exact ⟨[], (List.append_nil _).symm, Nat.zero_le _⟩
    · exact ⟨[e], hlog, le_rfl⟩
  obtain ⟨new, hlog, hlen⟩ := hevents
  exact ⟨hcfg, by omega, by omega, new, hlog, by omega⟩

theorem progress_of_cyclesUntilFalse {s u : State} (h : CyclesUntilFalse s u) : Progress s u := by
  induction h with
  | last h => exact step_progress (step_of_runCycle h)
  | more h _ ih => exact (step_progress (step_of_runCycle h)).trans ih

/-! ## A run without a refused text ends -/

theorem runCycle_keeps_refused {s t : State} {b : Bool} (h : runCycle s = .next (t, b)) : t.refused = none := by
  obtain ⟨hr, ⟨-, rfl⟩ | ⟨-, -, -, -, -, -, hrefused, -⟩⟩ := step_cases (step_of_runCycle h)
  · exact hr
  · exact hrefused

/-- No cycle writes a text, so none brings in one that is refused. -/
theorem runCycle_keeps_noRefusedText {s t : State} {b : Bool} (h : runCycle s = .next (t, b))
    (hs : NoRefusedText s) : NoRefusedText t := by
  obtain ⟨-, ⟨-, rfl⟩ | ⟨-, hpc, -, -, -, hcfg, -, htext, -⟩⟩ := step_cases (step_of_runCycle h)
  · exact hs
  · intro a r ha
    have hdecoded : decodedAt a t = decodedAt a s := by simp [decodedAt, fetchText, InRange, hcfg, htext]
    rw [hdecoded]
    exact hs a r (by omega)

/-- A cycle of an unmarked core answers if no text at or above PC is refused. -/
theorem runCycle_answers {s : State} (hr : s.refused = none) (hok : NoRefusedText s) :
    ∃ t b, runCycle s = .next (t, b) := by
  obtain ⟨t, ht⟩ := (onlyARefusedTextStopsAStep s).mpr ⟨hr, fun _ r => hok s.pc r le_rfl⟩
  obtain ⟨b, hb⟩ := step_next_iff.mp ht
  exact ⟨t, b, hb⟩

/-- Each cycle but the last takes one of the cells left above PC (43_cycle_sequencer.md R91). -/
theorem exists_cyclesUntilFalse {s : State} (hr : s.refused = none) (hok : NoRefusedText s) :
    ∃ u, CyclesUntilFalse s u := by
  induction hcells : s.cfg.capacity - s.pc using Nat.strong_induction_on generalizing s with
  | _ cells ih =>
    obtain ⟨t, b, h⟩ := runCycle_answers hr hok
    cases b with
    | false => exact ⟨t, .last h⟩
    | true =>
      obtain ⟨⟨-, -, hinside⟩, hpc, hcfg⟩ := runCycle_true h
      have hfewer : t.cfg.capacity - t.pc < cells := by rw [hcfg, hpc]; omega
      obtain ⟨u, hu⟩ := ih _ hfewer (runCycle_keeps_refused h) (runCycle_keeps_noRefusedText h hok) rfl
      exact ⟨u, .more h hu⟩

/-! ## A run of blank memory -/

/-- A core in a run that has fetched nothing but blank cells since a reset: AC, IR and the log are as at its start, MAR
is the last address fetched. -/
structure RunsBlank (s : State) : Prop where
  blank : s.mem = Memory.blank
  unrefused : s.refused = none
  running : s.halted = false
  acZero : s.ac = 0
  irEmpty : s.ir = []
  marLast : s.mar = s.pc - 1
  logStart : s.log = [.runStart]
  pcBound : s.pc ≤ s.cfg.capacity

theorem runsBlank_of_reset {s : State} (hr : s.refused = none) :
    RunsBlank { hostReset s with log := [.runStart] } where
  blank := rfl
  unrefused := hr
  running := rfl
  acZero := rfl
  irEmpty := rfl
  marLast := rfl
  logStart := rfl
  pcBound := Nat.zero_le _

theorem RunsBlank.fetchText_pc {s : State} (h : RunsBlank s) : fetchText s.pc s = [] :=
  (reads_of_blank_memory h.blank s.pc).2.1

theorem RunsBlank.fetch {s : State} (h : RunsBlank s) (hinside : s.pc < s.cfg.capacity) : RunsBlank (fetch s) where
  blank := h.blank
  unrefused := h.unrefused
  running := h.running
  acZero := h.acZero
  irEmpty := h.fetchText_pc
  marLast := rfl
  logStart := h.logStart
  pcBound := hinside

/-- Such a core cycles on to the end of memory. -/
theorem RunsBlank.cyclesUntilFalse {s : State} (h : RunsBlank s) :
    ∃ u, CyclesUntilFalse s u ∧ RunsBlank u ∧ u.cfg = s.cfg ∧ u.pc = s.cfg.capacity := by
  induction hcells : s.cfg.capacity - s.pc generalizing s with
  | zero =>
    have hend : s.pc = s.cfg.capacity := le_antisymm h.pcBound (by omega)
    exact ⟨s, .last (runCycle_of_stopped h.unrefused (.inr hend.ge)), h, rfl, hend⟩
  | succ cells ih =>
    have hinside : s.pc < s.cfg.capacity := by omega
    have hblank : decodedAt s.pc s = .blank := by
      rw [decodedAt, h.fetchText_pc, decode_of_whitespace _ rfl]
    have hcycle := runCycle_blank ⟨h.unrefused, h.running, hinside⟩ hblank
    obtain ⟨u, hu, hrest⟩ := ih (h.fetch hinside) (by rw [fetch_cfg, fetch_pc]; omega)
    exact ⟨u, .more hcycle hu, hrest⟩

/-! ## The statements -/

/-- Settles O45: a run is cycles between the banners, each passing a cell and appending at most one event. -/
theorem everyRunEnds : Obligations.EveryRunEnds := by
  intro s hr hok
  obtain ⟨u, hu⟩ := exists_cyclesUntilFalse (s := { s with log := [.runStart] }) hr hok
  obtain ⟨-, hle, hmax, middle, hlog, hlen⟩ := progress_of_cyclesUntilFalse hu
  have hstopped : Stopped u := stopped_of_cyclesUntilFalse hu
  have hlog' : (u.emit .runEnd).log = .runStart :: middle ++ [.runEnd] := by
    rw [State.emit_log, hlog]
    rfl
  refine ⟨u.emit .runEnd, _, (runProgram_next_iff hr).mpr ⟨u, hu, rfl, rfl⟩, hstopped, rfl, ?_,
    ⟨middle, hlog'⟩, hle, hmax⟩
  rw [hlog', List.length_append, List.length_cons, List.length_singleton]
  simp only at hle hmax hlen
  omega

/-- Settles O49: cycles keep the parameters, hence runs; reset keeps them, and the rest change only memory. -/
theorem parametersNeverChange : Obligations.ParametersNeverChange := by
  intro s t op r h
  obtain ⟨hr, ⟨-, rfl⟩ | ⟨-, b, hcycle⟩ | ⟨-, l, hrun⟩ | ⟨m, rfl⟩⟩ := hostStep_cases h
  · rfl
  · exact runCycle_keeps_cfg hcycle
  · obtain ⟨u, hu, rfl, -⟩ := (runProgram_next_iff hr).mp hrun
    exact (progress_of_cyclesUntilFalse hu).1
  · rfl

/-- Settles O53: the run after a reset fetches blank cells to the end of memory. -/
theorem blankMemoryRunsToTheEnd : Obligations.BlankMemoryRunsToTheEnd := by
  intro s hr
  have hr' : (hostReset s).refused = none := hr
  obtain ⟨u, hu, hblank, hcfg, hpc⟩ := (runsBlank_of_reset hr).cyclesUntilFalse
  have hlog : (u.emit .runEnd).log = [.runStart, .runEnd] := by
    rw [State.emit_log, hblank.logStart]
    rfl
  have hmar : u.mar = s.cfg.capacity - 1 := hblank.marLast.trans (congrArg (· - 1) hpc)
  exact ⟨u.emit .runEnd, (runProgram_next_iff hr').mpr ⟨u, hu, rfl, hlog.symm⟩, hpc, hblank.acZero, hblank.running,
    hblank.irEmpty, hmar⟩

/-- Settles O50: reset writes every element but the parameters and the draws; a marked core refuses it. -/
theorem resetReinitializesEverything : Obligations.ResetReinitializesEverything := by
  intro s
  refine ⟨fun hr => ?unmarked, fun hm t r h => ?marked⟩
  case unmarked =>
    exact ⟨hostReset s, hostStep_of_unmarked hr _, rfl, rfl, rfl, rfl, rfl, rfl, rfl,
      reads_of_blank_memory (hostReset_mem s), rfl, hr⟩
  case marked => exact hm (hostStep_cases h).1

end Sys2Proof.Proofs
end
